-- ==== Sys2Proof/Word.lean ====
section
/-! DEFINITION. The word types of the machine (00_scope.md R3, R4; notation of R147: bit 0 is the least significant bit). -/

namespace Sys2Proof

/-- An 8-bit value: a general register, a timer, a memory cell, an immediate `byte` (10_state.md R5, R11, R12). -/
abbrev Byte := BitVec 8

/-- A 16-bit value: `pc`, `I`, a stack slot, an instruction word (00_scope.md R4, decision D7; 30_encoding.md R39). -/
abbrev Word := BitVec 16

/-- The number of a general register, `0` to `15`; every value is legal (10_state.md R5). -/
abbrev Reg := Fin 16

end Sys2Proof
end

