-- ==== Sys2Proof/Config.lean ====
section
/-! DEFINITION. What one implementation of the machine fixes: the parameters of 00_scope.md R3 and R4, and the
spec's OPEN parameters (92_eei_decisions.md, "Open parameters in one place") as constants without a body.
`FONT_TABLE`, the one open parameter for which the spec supplies a default, stands in Machine/Memory.lean. -/

namespace Sys2Proof.Config

/-- `MEM_SIZE` (R3). -/
def memSize : Nat := 4096

/-- `PC_MAX`, the highest address an instruction can be fetched from (R3). -/
def pcMax : Nat := 4094

/-- The highest address of memory, `MEM_SIZE - 1`; a data address above it faults (20_memory.md R31). -/
def memTop : Nat := 4095

/-- `PROGRAM_ORIGIN` (R3). -/
def programOrigin : Nat := 0x200

/-- `MAX_PROGRAM_BYTES = MEM_SIZE - PROGRAM_ORIGIN` (R3). -/
def maxProgramBytes : Nat := 3584

/-- `FB_WIDTH` (R3). -/
def fbWidth : Nat := 64

/-- `FB_HEIGHT` (R3). -/
def fbHeight : Nat := 32

/-- `TIMER_HZ` (R3). -/
def timerHz : Nat := 60

/-- `FONT_BASE` (R3). -/
def fontBase : Nat := 0

/-- `GLYPH_BYTES` (R3). -/
def glyphBytes : Nat := 5

/-- `DEFAULT_IPS`, the power-on `ips` (R4, decision D20). -/
def defaultIps : Nat := 500

/-- `DEFAULT_FPS`, the power-on `fps` (R4, decision D20), the rational 60 written as its canonical literal. -/
def defaultFps : Rat := { num := 60, den := 1 }

/-- OPEN parameter `COLOR_ON` (R4, decision D15): the 32-bit value a renderer sees for a pixel that is on.
A free value: assumption log 4. -/
opaque colorOn : BitVec 32

/-- How far `COLOR_OFF` lies above `COLOR_ON`, less one, modulo `2^32`: with this free value the pair
(`COLOR_ON`, `COLOR_OFF`) is any pair of two DISTINCT values, which is all R4 says of them (assumption log 4). -/
opaque colorGap : Fin 4294967295

/-- OPEN parameter `COLOR_OFF` (R4, decision D15), distinct from `COLOR_ON`. -/
def colorOff : BitVec 32 := colorOn + BitVec.ofNat 32 (colorGap.val + 1)

/-- OPEN parameter `BP_CAPACITY` (R4, decision D24): how many breakpoints the store holds; `none` is unbounded.
A free value: assumption log 5. -/
opaque bpCapacity : Option Nat

/-- OPEN parameter `rand` (R4, 42_load_alu.md R80, decision D16): the oracle's byte for the n-th draw. A free value:
nothing constrains any byte of the sequence (assumption log 3). -/
opaque randByte : Nat → Byte

end Sys2Proof.Config
end

