-- ==== Sys2Proof/Syntax.lean ====
section
/-! DEFINITION. The syntax: the 34 instructions of 30_encoding.md Table R45, and the 14 host commands of
47_orchestrator.md Table R97. Operands are what 30_encoding.md R43 makes of the fields: `x`, `y` register numbers; `byte`
eight bits; `address` already zero-extended to the 16 bits of `pc` and `I`; `nibble` a count of sprite rows. What the
fields' widths demand of `address` and `nibble` is checked in WellFormed.lean. Ignored bits (R49) are no operands. -/

namespace Sys2Proof

/-- An instruction, one constructor per row of spec/opcode_table.json. -/
inductive Instr where
  /-- row 1, `CLS` (44_display.md R89) -/
  | cls
  /-- row 2, `RET` (41_control_transfer.md R60) -/
  | ret
  /-- row 3, `JP addr` (R61) -/
  | jp (addr : Word)
  /-- row 4, `CALL addr` (R62) -/
  | call (addr : Word)
  /-- row 5, `SE Vx, byte` (R63) -/
  | seImm (x : Reg) (byte : Byte)
  /-- row 6, `SNE Vx, byte` (R64) -/
  | sneImm (x : Reg) (byte : Byte)
  /-- row 7, `SE Vx, Vy` (R65) -/
  | seReg (x y : Reg)
  /-- row 8, `LD Vx, byte` (42_load_alu.md R69) -/
  | ldImm (x : Reg) (byte : Byte)
  /-- row 9, `ADD Vx, byte` (R70) -/
  | addImm (x : Reg) (byte : Byte)
  /-- row 10, `LD Vx, Vy` (R71) -/
  | ldReg (x y : Reg)
  /-- row 11, `OR Vx, Vy` (R72) -/
  | orReg (x y : Reg)
  /-- row 12, `AND Vx, Vy` (R73) -/
  | andReg (x y : Reg)
  /-- row 13, `XOR Vx, Vy` (R74) -/
  | xorReg (x y : Reg)
  /-- row 14, `ADD Vx, Vy` (R75) -/
  | addReg (x y : Reg)
  /-- row 15, `SUB Vx, Vy` (R76) -/
  | subReg (x y : Reg)
  /-- row 16, `SHR Vx` (R77) -/
  | shr (x : Reg)
  /-- row 17, `SUBN Vx, Vy` (R78) -/
  | subnReg (x y : Reg)
  /-- row 18, `SHL Vx` (R79) -/
  | shl (x : Reg)
  /-- row 19, `SNE Vx, Vy` (41_control_transfer.md R66) -/
  | sneReg (x y : Reg)
  /-- row 20, `LD I, addr` (43_index_memory.md R82) -/
  | ldI (addr : Word)
  /-- row 21, `JP V0, addr` (41_control_transfer.md R67) -/
  | jpV0 (addr : Word)
  /-- row 22, `RND Vx, byte` (42_load_alu.md R80) -/
  | rnd (x : Reg) (byte : Byte)
  /-- row 23, `DRW Vx, Vy, nibble` (44_display.md R90) -/
  | drw (x y : Reg) (nibble : Nat)
  /-- row 24, `SKP Vx` (45_keypad_timers.md R91) -/
  | skp (x : Reg)
  /-- row 25, `SKNP Vx` (R92) -/
  | sknp (x : Reg)
  /-- row 26, `LD Vx, DT` (R93) -/
  | ldVxDT (x : Reg)
  /-- row 27, `LD Vx, K` (R94) -/
  | ldVxK (x : Reg)
  /-- row 28, `LD DT, Vx` (R95) -/
  | ldDTVx (x : Reg)
  /-- row 29, `LD ST, Vx` (R96) -/
  | ldSTVx (x : Reg)
  /-- row 30, `ADD I, Vx` (43_index_memory.md R83) -/
  | addI (x : Reg)
  /-- row 31, `LD F, Vx` (R84) -/
  | ldF (x : Reg)
  /-- row 32, `LD B, Vx` (R85) -/
  | ldB (x : Reg)
  /-- row 33, `LD [I], Vx` (R86) -/
  | storeRegs (x : Reg)
  /-- row 34, `LD Vx, [I]` (R87) -/
  | loadRegs (x : Reg)
  deriving DecidableEq, Repr

/-- The disposition of a breakpoint (10_state.md R19). -/
inductive Disposition where
  /-- `clear-after-trigger`: the entry is one-shot, removed by the match that it causes (47_orchestrator.md R102). -/
  | clearAfterTrigger
  /-- `preserve`: the entry stays until the host removes it. -/
  | preserve
  deriving DecidableEq, Repr

/-- A host command, one constructor per row of 47_orchestrator.md Table R97. -/
inductive Command where
  /-- `configure_timing(ips, fps)` (R98) -/
  | configureTiming (ips : Int) (fps : Rat)
  /-- `reset()` (R100) -/
  | reset
  /-- `load_program(bytes)` (R107) -/
  | loadProgram (bytes : List Byte)
  /-- `step()` (R101) -/
  | step
  /-- `run_for_one_frame()` (R105) -/
  | runForOneFrame
  /-- `step_into()` (R112) -/
  | stepInto
  /-- `step_over()` (R113) -/
  | stepOver
  /-- `step_out()` (R114) -/
  | stepOut
  /-- `set_key_state(k, pressed)` (R115) -/
  | setKeyState (k : Nat) (pressed : Bool)
  /-- `set_pc(v)` (R116) -/
  | setPc (v : Nat)
  /-- `set_delay_timer(v)` (R117); its port has 8 bits. -/
  | setDelayTimer (v : Byte)
  /-- `bp_add(addr, disposition)` (R103) -/
  | bpAdd (addr : Word) (disposition : Disposition)
  /-- `bp_remove(addr)` (R104) -/
  | bpRemove (addr : Word)
  /-- `bp_clear()` (R104) -/
  | bpClear
  deriving DecidableEq, Repr

end Sys2Proof
end

