-- ==== Sys2Proof/WellFormed.lean ====
section
/-! DEFINITION. Which instruction terms stand for an instruction word: 30_encoding.md R43 gives `nnn` the range 0 to 4095
and `n` the range 0 to 15; `x`, `y` and `kk` fit their fields by their types. And which command terms lie inside the
argument domains of 47_orchestrator.md Table R97 and R118. -/

namespace Sys2Proof

/-- An `address` operand fits its 12-bit field (R43: 0 to 4095). -/
def addressFits (a : Word) : Bool := decide (a.toNat ≤ 4095)

/-- A `nibble` operand fits its 4-bit field (R43: 0 to 15). -/
def nibbleFits (n : Nat) : Bool := decide (n ≤ 15)

/-- The operands of `i` fit the fields of its encoding (R42, R43). -/
def Instr.wf : Instr → Bool
  | .cls => true
  | .ret => true
  | .jp a => addressFits a
  | .call a => addressFits a
  | .seImm _ _ => true
  | .sneImm _ _ => true
  | .seReg _ _ => true
  | .ldImm _ _ => true
  | .addImm _ _ => true
  | .ldReg _ _ => true
  | .orReg _ _ => true
  | .andReg _ _ => true
  | .xorReg _ _ => true
  | .addReg _ _ => true
  | .subReg _ _ => true
  | .shr _ => true
  | .subnReg _ _ => true
  | .shl _ => true
  | .sneReg _ _ => true
  | .ldI a => addressFits a
  | .jpV0 a => addressFits a
  | .rnd _ _ => true
  | .drw _ _ n => nibbleFits n
  | .skp _ => true
  | .sknp _ => true
  | .ldVxDT _ => true
  | .ldVxK _ => true
  | .ldDTVx _ => true
  | .ldSTVx _ => true
  | .addI _ => true
  | .ldF _ => true
  | .ldB _ => true
  | .storeRegs _ => true
  | .loadRegs _ => true

/-- The arguments of `c` lie in the command's domain. `set_key_state` takes keys 0 to 15 (R115, R118); the domains of the
other arguments are their types (`set_pc`, `configure_timing` and `load_program` decline values of theirs with
`rejected`, which is a meaning, R98, R107, R116). -/
def Command.wf : Command → Bool
  | .configureTiming _ _ => true
  | .reset => true
  | .loadProgram _ => true
  | .step => true
  | .runForOneFrame => true
  | .stepInto => true
  | .stepOver => true
  | .stepOut => true
  | .setKeyState k _ => decide (k ≤ 15)
  | .setPc _ => true
  | .setDelayTimer _ => true
  | .bpAdd _ _ => true
  | .bpRemove _ => true
  | .bpClear => true

end Sys2Proof
end

