-- ==== Sys2Proof/Decode.lean ====
section
/-! DEFINITION. The decoder (30_encoding.md R39 to R50) and, after it, the encoder. The decoder is total: a word that
selects no instruction is rejected under a name that says which secondary opcode was not recognised (R50), and a byte
sequence too short for a word is rejected as truncated. The encoder is written from Table R45 and the shapes of
Table R42; it puts 0 in every ignored bit (R49). -/

namespace Sys2Proof

/-! ### Words and bytes (20_memory.md R28) -/

/-- The word whose high byte is fetched first: `mem[pc] * 256 + mem[pc+1]` (R28). -/
def wordOfBytes (hi lo : Byte) : Word := hi ++ lo

/-- The two bytes of a word as memory holds them, high byte at the lower address (R28, R39). -/
def bytesOfWord (w : Word) : List Byte := [w.extractLsb' 8 8, w.extractLsb' 0 8]

/-! ### Fields -/

/-- The seven values of the decoder (R40: `group`, `x`, `y`, `address`, `byte`, `nibble`, `raw`). -/
structure Fields where
  group   : BitVec 4
  x       : BitVec 4
  y       : BitVec 4
  address : BitVec 12
  byte    : BitVec 8
  nibble  : BitVec 4
  raw     : Word
  deriving DecidableEq, Repr

/-- The decoder of R40: bit slices, for every word, whether or not an instruction uses them (R41). -/
def fieldsOf (w : Word) : Fields where
  group   := w.extractLsb' 12 4
  x       := w.extractLsb' 8 4
  y       := w.extractLsb' 4 4
  address := w.extractLsb' 0 12
  byte    := w.extractLsb' 0 8
  nibble  := w.extractLsb' 0 4
  raw     := w

/-- A register field as a register number (R5: every value is legal). -/
def regOf (n : BitVec 4) : Reg := n.toFin

/-- `zext_16(address)` (R43). -/
def addrOf (f : Fields) : Word := f.address.setWidth 16

/-! ### Dispatch -/

/-- Why bytes select no instruction. -/
inductive Reject where
  /-- Fewer than the two bytes of an instruction (R39). -/
  | truncated
  /-- Group 0 with a `byte` other than `0xE0`, `0xEE` (R46). -/
  | illegalGroup0 (byte : Byte)
  /-- Group 8 with a `nibble` outside 0 to 7 and `0xE` (R47). -/
  | illegalGroup8 (nibble : BitVec 4)
  /-- Group E with a `byte` other than `0x9E`, `0xA1` (R48). -/
  | illegalGroupE (byte : Byte)
  /-- Group F with a `byte` that is none of the nine of R48. -/
  | illegalGroupF (byte : Byte)
  deriving DecidableEq, Repr

/-- Group 0: the secondary opcode is `byte`, `x` is not examined (R46). -/
def dispatchGroup0 (f : Fields) : Except Reject Instr :=
  match f.byte.toNat with
  | 0xE0 => .ok .cls
  | 0xEE => .ok .ret
  | _    => .error (.illegalGroup0 f.byte)

/-- Group 8: the secondary opcode is `nibble`; `SHR` and `SHL` ignore `y` (R47). -/
def dispatchGroup8 (f : Fields) : Except Reject Instr :=
  match f.nibble.toNat with
  | 0x0 => .ok (.ldReg (regOf f.x) (regOf f.y))
  | 0x1 => .ok (.orReg (regOf f.x) (regOf f.y))
  | 0x2 => .ok (.andReg (regOf f.x) (regOf f.y))
  | 0x3 => .ok (.xorReg (regOf f.x) (regOf f.y))
  | 0x4 => .ok (.addReg (regOf f.x) (regOf f.y))
  | 0x5 => .ok (.subReg (regOf f.x) (regOf f.y))
  | 0x6 => .ok (.shr (regOf f.x))
  | 0x7 => .ok (.subnReg (regOf f.x) (regOf f.y))
  | 0xE => .ok (.shl (regOf f.x))
  | _   => .error (.illegalGroup8 f.nibble)

/-- Group E: the secondary opcode is `byte` (R48). -/
def dispatchGroupE (f : Fields) : Except Reject Instr :=
  match f.byte.toNat with
  | 0x9E => .ok (.skp (regOf f.x))
  | 0xA1 => .ok (.sknp (regOf f.x))
  | _    => .error (.illegalGroupE f.byte)

/-- Group F: the secondary opcode is `byte` (R48). -/
def dispatchGroupF (f : Fields) : Except Reject Instr :=
  match f.byte.toNat with
  | 0x07 => .ok (.ldVxDT (regOf f.x))
  | 0x0A => .ok (.ldVxK (regOf f.x))
  | 0x15 => .ok (.ldDTVx (regOf f.x))
  | 0x18 => .ok (.ldSTVx (regOf f.x))
  | 0x1E => .ok (.addI (regOf f.x))
  | 0x29 => .ok (.ldF (regOf f.x))
  | 0x33 => .ok (.ldB (regOf f.x))
  | 0x55 => .ok (.storeRegs (regOf f.x))
  | 0x65 => .ok (.loadRegs (regOf f.x))
  | _    => .error (.illegalGroupF f.byte)

/-- Dispatch on `group`, with a secondary dispatch for the groups 0, 8, E and F (R44); groups 5 and 9 ignore
`nibble` (R49). -/
def dispatch (f : Fields) : Except Reject Instr :=
  match f.group.toNat with
  | 0x0 => dispatchGroup0 f
  | 0x1 => .ok (.jp (addrOf f))
  | 0x2 => .ok (.call (addrOf f))
  | 0x3 => .ok (.seImm (regOf f.x) f.byte)
  | 0x4 => .ok (.sneImm (regOf f.x) f.byte)
  | 0x5 => .ok (.seReg (regOf f.x) (regOf f.y))
  | 0x6 => .ok (.ldImm (regOf f.x) f.byte)
  | 0x7 => .ok (.addImm (regOf f.x) f.byte)
  | 0x8 => dispatchGroup8 f
  | 0x9 => .ok (.sneReg (regOf f.x) (regOf f.y))
  | 0xA => .ok (.ldI (addrOf f))
  | 0xB => .ok (.jpV0 (addrOf f))
  | 0xC => .ok (.rnd (regOf f.x) f.byte)
  | 0xD => .ok (.drw (regOf f.x) (regOf f.y) f.nibble.toNat)
  | 0xE => dispatchGroupE f
  | _   => dispatchGroupF f

/-- The instruction a word selects, or why it selects none (R45, R50). -/
def decodeWord (w : Word) : Except Reject Instr := dispatch (fieldsOf w)

/-- Decoding at the head of a byte sequence: the instruction and the bytes after its two (R39). -/
def decode : List Byte → Except Reject (Instr × List Byte)
  | hi :: lo :: rest => (decodeWord (wordOfBytes hi lo)).map (fun i => (i, rest))
  | [_]              => .error .truncated
  | []               => .error .truncated

/-- The instruction the decoder reads from a table word: the word's low `nbits` bits (every bit above them is 0), laid
out as memory holds it. -/
def decodeTableWord (nbits w : Nat) : Option Instr :=
  match decode (bytesOfWord (BitVec.ofNat 16 (w % 2 ^ nbits))) with
  | .ok (i, _) => some i
  | .error _   => none

/-! ### The encoder -/

/-- Shape `NNN` of Table R42 over an opcode `m`. -/
def encNNN (m : Nat) (a : Word) : Word := BitVec.ofNat 16 (m + a.toNat)

/-- Shape `XKK` of Table R42 over an opcode `m`. -/
def encXKK (m : Nat) (x : Reg) (k : Byte) : Word := BitVec.ofNat 16 (m + x.val * 256 + k.toNat)

/-- Shape `XY` of Table R42 over an opcode `m`. -/
def encXY (m : Nat) (x y : Reg) : Word := BitVec.ofNat 16 (m + x.val * 256 + y.val * 16)

/-- Shape `XYN` of Table R42 over an opcode `m`. -/
def encXYN (m : Nat) (x y : Reg) (n : Nat) : Word := BitVec.ofNat 16 (m + x.val * 256 + y.val * 16 + n)

/-- Shape `X` of Table R42 over an opcode `m`. -/
def encX (m : Nat) (x : Reg) : Word := BitVec.ofNat 16 (m + x.val * 256)

/-- The word of a well-formed instruction: the `match` value of its row of Table R45 with the operands in their fields. -/
def encode : Instr → Word
  | .cls           => BitVec.ofNat 16 0x00E0
  | .ret           => BitVec.ofNat 16 0x00EE
  | .jp a          => encNNN 0x1000 a
  | .call a        => encNNN 0x2000 a
  | .seImm x k     => encXKK 0x3000 x k
  | .sneImm x k    => encXKK 0x4000 x k
  | .seReg x y     => encXY 0x5000 x y
  | .ldImm x k     => encXKK 0x6000 x k
  | .addImm x k    => encXKK 0x7000 x k
  | .ldReg x y     => encXY 0x8000 x y
  | .orReg x y     => encXY 0x8001 x y
  | .andReg x y    => encXY 0x8002 x y
  | .xorReg x y    => encXY 0x8003 x y
  | .addReg x y    => encXY 0x8004 x y
  | .subReg x y    => encXY 0x8005 x y
  | .shr x         => encX 0x8006 x
  | .subnReg x y   => encXY 0x8007 x y
  | .shl x         => encX 0x800E x
  | .sneReg x y    => encXY 0x9000 x y
  | .ldI a         => encNNN 0xA000 a
  | .jpV0 a        => encNNN 0xB000 a
  | .rnd x k       => encXKK 0xC000 x k
  | .drw x y n     => encXYN 0xD000 x y n
  | .skp x         => encX 0xE09E x
  | .sknp x        => encX 0xE0A1 x
  | .ldVxDT x      => encX 0xF007 x
  | .ldVxK x       => encX 0xF00A x
  | .ldDTVx x      => encX 0xF015 x
  | .ldSTVx x      => encX 0xF018 x
  | .addI x        => encX 0xF01E x
  | .ldF x         => encX 0xF029 x
  | .ldB x         => encX 0xF033 x
  | .storeRegs x   => encX 0xF055 x
  | .loadRegs x    => encX 0xF065 x

/-! ### The opcode map as a table -/

/-- A row of Table R45: a word `w` selects it exactly when `w & mask = pattern`. -/
structure Row where
  mnemonic : String
  mask     : Word
  pattern  : Word
  deriving DecidableEq, Repr

/-- `w` selects the row (the sentence after Table R45). -/
def Row.selects (r : Row) (w : Word) : Bool := decide (w &&& r.mask = r.pattern)

/-- The row of Table R45 an instruction belongs to, mask and match as the table prints them, the mnemonic as
spec/opcode_table.json spells it. -/
def Instr.row : Instr → Row
  | .cls           => ⟨"CLS", 0xF0FF, 0x00E0⟩
  | .ret           => ⟨"RET", 0xF0FF, 0x00EE⟩
  | .jp _          => ⟨"JP_addr", 0xF000, 0x1000⟩
  | .call _        => ⟨"CALL_addr", 0xF000, 0x2000⟩
  | .seImm _ _     => ⟨"SE_Vx__byte", 0xF000, 0x3000⟩
  | .sneImm _ _    => ⟨"SNE_Vx__byte", 0xF000, 0x4000⟩
  | .seReg _ _     => ⟨"SE_Vx__Vy", 0xF000, 0x5000⟩
  | .ldImm _ _     => ⟨"LD_Vx__byte", 0xF000, 0x6000⟩
  | .addImm _ _    => ⟨"ADD_Vx__byte", 0xF000, 0x7000⟩
  | .ldReg _ _     => ⟨"LD_Vx__Vy", 0xF00F, 0x8000⟩
  | .orReg _ _     => ⟨"OR_Vx__Vy", 0xF00F, 0x8001⟩
  | .andReg _ _    => ⟨"AND_Vx__Vy", 0xF00F, 0x8002⟩
  | .xorReg _ _    => ⟨"XOR_Vx__Vy", 0xF00F, 0x8003⟩
  | .addReg _ _    => ⟨"ADD_Vx__Vy", 0xF00F, 0x8004⟩
  | .subReg _ _    => ⟨"SUB_Vx__Vy", 0xF00F, 0x8005⟩
  | .shr _         => ⟨"SHR_Vx", 0xF00F, 0x8006⟩
  | .subnReg _ _   => ⟨"SUBN_Vx__Vy", 0xF00F, 0x8007⟩
  | .shl _         => ⟨"SHL_Vx", 0xF00F, 0x800E⟩
  | .sneReg _ _    => ⟨"SNE_Vx__Vy", 0xF000, 0x9000⟩
  | .ldI _         => ⟨"LD_I__addr", 0xF000, 0xA000⟩
  | .jpV0 _        => ⟨"JP_V0__addr", 0xF000, 0xB000⟩
  | .rnd _ _       => ⟨"RND_Vx__byte", 0xF000, 0xC000⟩
  | .drw _ _ _     => ⟨"DRW_Vx__Vy__nibble", 0xF000, 0xD000⟩
  | .skp _         => ⟨"SKP_Vx", 0xF0FF, 0xE09E⟩
  | .sknp _        => ⟨"SKNP_Vx", 0xF0FF, 0xE0A1⟩
  | .ldVxDT _      => ⟨"LD_Vx__DT", 0xF0FF, 0xF007⟩
  | .ldVxK _       => ⟨"LD_Vx__K", 0xF0FF, 0xF00A⟩
  | .ldDTVx _      => ⟨"LD_DT__Vx", 0xF0FF, 0xF015⟩
  | .ldSTVx _      => ⟨"LD_ST__Vx", 0xF0FF, 0xF018⟩
  | .addI _        => ⟨"ADD_I__Vx", 0xF0FF, 0xF01E⟩
  | .ldF _         => ⟨"LD_F__Vx", 0xF0FF, 0xF029⟩
  | .ldB _         => ⟨"LD_B__Vx", 0xF0FF, 0xF033⟩
  | .storeRegs _   => ⟨"LD__I___Vx", 0xF0FF, 0xF055⟩
  | .loadRegs _    => ⟨"LD_Vx___I", 0xF0FF, 0xF065⟩

/-- One instruction of every row, in the order of Table R45. -/
def rowSamples : List Instr :=
  [.cls, .ret, .jp 0, .call 0, .seImm 0 0, .sneImm 0 0, .seReg 0 0, .ldImm 0 0, .addImm 0 0,
   .ldReg 0 0, .orReg 0 0, .andReg 0 0, .xorReg 0 0, .addReg 0 0, .subReg 0 0, .shr 0, .subnReg 0 0, .shl 0,
   .sneReg 0 0, .ldI 0, .jpV0 0, .rnd 0 0, .drw 0 0 0, .skp 0, .sknp 0,
   .ldVxDT 0, .ldVxK 0, .ldDTVx 0, .ldSTVx 0, .addI 0, .ldF 0, .ldB 0, .storeRegs 0, .loadRegs 0]

/-- Table R45: its 34 rows, in order. -/
def opcodeTable : List Row := rowSamples.map Instr.row

/-- The bits of a word that the instruction ignores (R49): `w[11:8]` in `CLS` and `RET`, `w[3:0]` in the two
register-register skips, `w[7:4]` in the two shifts. -/
def Instr.ignoredBits : Instr → Word
  | .cls           => 0x0F00
  | .ret           => 0x0F00
  | .jp _          => 0
  | .call _        => 0
  | .seImm _ _     => 0
  | .sneImm _ _    => 0
  | .seReg _ _     => 0x000F
  | .ldImm _ _     => 0
  | .addImm _ _    => 0
  | .ldReg _ _     => 0
  | .orReg _ _     => 0
  | .andReg _ _    => 0
  | .xorReg _ _    => 0
  | .addReg _ _    => 0
  | .subReg _ _    => 0
  | .shr _         => 0x00F0
  | .subnReg _ _   => 0
  | .shl _         => 0x00F0
  | .sneReg _ _    => 0x000F
  | .ldI _         => 0
  | .jpV0 _        => 0
  | .rnd _ _       => 0
  | .drw _ _ _     => 0
  | .skp _         => 0
  | .sknp _        => 0
  | .ldVxDT _      => 0
  | .ldVxK _       => 0
  | .ldDTVx _      => 0
  | .ldSTVx _      => 0
  | .addI _        => 0
  | .ldF _         => 0
  | .ldB _         => 0
  | .storeRegs _   => 0
  | .loadRegs _    => 0

end Sys2Proof
end

