-- ==== Sys2Proof/Machine/State.lean ====
section
/-! DEFINITION. The state of the machine, as plain data: the Guest State (10_state.md R5 to R15), the Orchestrator state
(R16 to R19), the outputs of the last step to the host (47_orchestrator.md R97), and the position in the random
oracle's sequence. And the names of the faults, outcomes and refusals. -/

namespace Sys2Proof.Machine

/-- The faults of 60_exceptions.md Table R119: every outcome but `Success` and the two pauses (00_scope.md, glossary).
In this machine a fault is "a returned enum value" (40_step.md R57): the step that raises one is a `next` step, which
records it in `State.outcome` and leaves `pc` on the instruction (R131). So no step ever answers the interface's
`.fault`; these names are the payload of `StepOutcome.fault`. Recording them is neither safer nor less safe than
the spec: the spec gives the state that each of them leaves. -/
inductive Fault where
  /-- Raised by the engine step on a word that selects no instruction (R120). Modelled as the spec says: safe. -/
  | invalidInstruction
  /-- Raised by `SKP`, `SKNP` with `V[x] > 15` (R121). Modelled as the spec says: safe. -/
  | invalidKey
  /-- Raised by `DRW` about to read a row above address 4095; earlier rows stay drawn (R122). As the spec says: safe. -/
  | invalidSpriteLocation
  /-- Raised by `LD B, Vx`, `LD [I], Vx`, `LD Vx, [I]` on an address above 4095 (R123). As the spec says: safe. -/
  | invalidMemoryLocation
  /-- Raised by `RET` on an empty stack (R124). As the spec says: safe. -/
  | stackUnderflow
  /-- Raised by `CALL` on a full stack (R125). As the spec says: safe. -/
  | stackOverflow
  /-- Returned by the command `step_into` when it finds no call (R127). As the spec says: safe. -/
  | noSubroutine
  /-- Returned by the command `step_out` on an empty stack (R127). As the spec says: safe. -/
  | notInSubroutine
  /-- Raised by the engine step with `pc > 4094` (R126, the spec's own outcome). As the spec says: safe. -/
  | fetchOutOfRange
  deriving DecidableEq, Repr

/-- The outcomes of Table R119. -/
inductive StepOutcome where
  /-- code 0: the instruction completed. -/
  | success
  /-- code 1: the pause of a key wait (R128). -/
  | haltedOnKeyPress
  /-- code 2: the pause of a breakpoint match (R128). -/
  | breakpointReached
  /-- codes 3 to 11: a fault. -/
  | fault (f : Fault)
  deriving DecidableEq, Repr

/-- What the machine gives no meaning to (`refuse`, R118, R147), and what this model has no meaning for. -/
inductive Refusal where
  /-- Raised by an arm of `exec` that has no meaning yet; no arm of this model raises it. Safe. -/
  | notModelled (mnemonic : String)
  /-- Raised by the command `set_key_state` with `k > 15`: "refuse: not a command of the block" (R115, R118). Safe. -/
  | keyOutOfRange (k : Nat)
  /-- Raised by `step_into`, `step_over`, `step_out` when a finite breakpoint store is full (R118, decision D24). Safe. -/
  | breakpointStoreFull
  deriving DecidableEq, Repr

/-- The stack pointer: an "integer in range [-1, 15]; -1 means 'empty'" (10_state.md R9, which leaves the representation
free). `top k` is the value `k`, `empty` the value -1. -/
inductive StackPtr where
  /-- `sp = -1` -/
  | empty
  /-- `sp = k` -/
  | top (k : Fin 16)
  deriving DecidableEq, Repr

/-- The integer the spec writes for `sp` (R9). -/
def StackPtr.toInt : StackPtr → Int
  | .empty => -1
  | .top k => k.val

/-- Memory as the cells that differ from their reset contents, addresses rising (Machine/Memory.lean). -/
abbrev Memory := List Host.Cell

/-- The framebuffer: 32 rows of 64 one-bit cells; bit `px` of row `py` is the cell `fb[px, py]` (R13). -/
abbrev Framebuffer := Vector (BitVec 64) 32

/-- An entry of the breakpoint store (R19). -/
structure Breakpoint where
  addr        : Word
  disposition : Disposition
  deriving DecidableEq, Repr

/-- An event to the host (47_orchestrator.md R97). -/
inductive Event where
  /-- `ScreenUpdate(fb)` (R111); `Framebuffer.color` gives the colours a renderer sees. -/
  | screenUpdate (fb : Framebuffer)
  /-- `ToneRequest(duration_ms)`, an exact rational (R110). -/
  | toneRequest (durationMs : Rat)
  deriving DecidableEq, Repr

/-- The Guest State: what instructions read and change (R5 to R15). -/
structure Guest where
  /-- `V[0]` to `V[15]` (R5); `V[15]` is `VF` (R6) -/
  V      : Vector Byte 16
  /-- the index register (R7) -/
  I      : Word
  /-- the program counter (R8) -/
  pc     : Word
  /-- the stack pointer (R9) -/
  sp     : StackPtr
  /-- the call stack, outside memory (R10) -/
  stack  : Vector Word 16
  /-- `DT`, the delay timer (R11) -/
  DT     : Byte
  /-- `ST`, the sound timer (R11) -/
  ST     : Byte
  /-- memory (R12) -/
  mem    : Memory
  /-- the framebuffer (R13) -/
  fb     : Framebuffer
  /-- the keypad (R14): pressed or not -/
  key    : Vector Bool 16
  /-- `halted_until_key_press` (R15) -/
  halted : Bool
  /-- `key_press_register` (R15) -/
  kpr    : Reg
  deriving DecidableEq, Repr

/-- The Orchestrator state, which no instruction reads or writes (R16 to R19). -/
structure Orchestrator where
  /-- `instructions_per_second` (R16) -/
  ips              : Nat
  /-- `frames_per_second` (R16) -/
  fps              : Rat
  /-- `floor(ips / fps)` (R16) -/
  stepsPerFrame    : Nat
  /-- `timer_divisor` (R16, 47_orchestrator.md R99) -/
  timerDivisor     : Nat
  /-- `1000 / fps` (R16) -/
  maxFrameTimeMs   : Rat
  /-- steps since the last frame boundary (R17) -/
  frameStepCounter : Nat
  /-- steps since the last tick (R17) -/
  timerStepCounter : Nat
  /-- the tone flag (R18) -/
  emittingTone     : Bool
  /-- the breakpoint store, oldest first (R19) -/
  bps              : List Breakpoint
  deriving DecidableEq, Repr

/-- The whole state. -/
structure State where
  /-- the Guest State -/
  guest    : Guest
  /-- the Orchestrator state -/
  orch     : Orchestrator
  /-- MODEL's own field: the outcome the last engine or orchestrator step returned (R119); assumption log 1 -/
  outcome  : StepOutcome
  /-- MODEL's own field: the events the last `step` or `run_for_one_frame` emitted, in order; assumption log 1 -/
  events   : List Event
  /-- MODEL's own field: how many bytes of the oracle `rand` have been drawn; assumption log 3 -/
  randUsed : Nat
  deriving DecidableEq, Repr

/-- The Guest State after reset (10_state.md Table R22). Memory with nothing listed is the font and zeros. -/
def Guest.reset : Guest where
  V      := Vector.replicate 16 0
  I      := 0
  pc     := 0x200
  sp     := .empty
  stack  := Vector.replicate 16 0
  DT     := 0
  ST     := 0
  mem    := []
  fb     := Vector.replicate 32 0
  key    := Vector.replicate 16 false
  halted := false
  kpr    := 0

/-- The Orchestrator state at power-on (10_state.md Table R23): timing 500 / 60, so 8 steps a frame, a cadence divisor of
8 and 50/3 ms a frame. -/
def Orchestrator.powerOn : Orchestrator where
  ips              := Config.defaultIps
  fps              := Config.defaultFps
  stepsPerFrame    := 8
  timerDivisor     := 8
  maxFrameTimeMs   := { num := 50, den := 3 }
  frameStepCounter := 0
  timerStepCounter := 0
  emittingTone     := false
  bps              := []

/-- The machine at power-on (70_reset_and_hazards.md R137). The three fields of the model's own are at the values that
assumption logs 1 and 3 name. -/
def State.reset : State where
  guest    := Guest.reset
  orch     := Orchestrator.powerOn
  outcome  := .success
  events   := []
  randUsed := 0

end Sys2Proof.Machine
end

