-- ==== Sys2Proof/Machine/Memory.lean ====
section
/-! DEFINITION. Memory: 4096 bytes, byte-addressed (20_memory.md R25). What an unlisted address reads as is its reset
content (10_state.md Table R22): the font, and zeros. Every access is one byte (R29); a sequence of bytes is written to
ascending addresses (R28). The callers check the bounds before they access (R31). -/

namespace Sys2Proof.Machine

/-- `FONT_TABLE`, an OPEN parameter at the default of 20_memory.md Table R27, one glyph of five rows a line
(assumption log 2). -/
def fontTable : List Byte :=
  [0xF0, 0x90, 0x90, 0x90, 0xF0] ++ [0x20, 0x60, 0x20, 0x20, 0x70] ++
  [0xF0, 0x10, 0xF0, 0x80, 0xF0] ++ [0xF0, 0x10, 0xF0, 0x10, 0xF0] ++
  [0x90, 0x90, 0xF0, 0x10, 0x10] ++ [0xF0, 0x80, 0xF0, 0x10, 0xF0] ++
  [0xF0, 0x80, 0xF0, 0x90, 0xF0] ++ [0xF0, 0x10, 0x20, 0x40, 0x40] ++
  [0xF0, 0x90, 0xF0, 0x90, 0xF0] ++ [0xF0, 0x90, 0xF0, 0x10, 0xF0] ++
  [0xF0, 0x90, 0xF0, 0x90, 0x90] ++ [0xE0, 0x90, 0xE0, 0x90, 0xE0] ++
  [0xF0, 0x80, 0x80, 0x80, 0xF0] ++ [0xE0, 0x90, 0x90, 0x90, 0xE0] ++
  [0xF0, 0x80, 0xF0, 0x80, 0xF0] ++ [0xF0, 0x80, 0xF0, 0x80, 0x80]

/-- What an unlisted address reads as: `FONT_TABLE` from address 0, zero above it (R26, Table R22). -/
def resetByte (a : Nat) : Byte := fontTable.getD a 0

/-- `MemRead(a, 1)` (R147, R29). -/
def readByte : Memory → Nat → Byte
  | [], a          => resetByte a
  | (k, v) :: m, a => if a = k then v else readByte m a

/-- The memory with address `a` back at its reset content. -/
def eraseByte (m : Memory) (a : Nat) : Memory := m.filter (fun c => decide (c.1 ≠ a))

/-- Lists the cell `(a, b)` before the first cell of a higher address. -/
def insertCell : Memory → Nat → Byte → Memory
  | [], a, b          => [(a, b)]
  | (k, v) :: m, a, b => if a < k then (a, b) :: (k, v) :: m else (k, v) :: insertCell m a b

/-- `MemWrite(a, 1, b)` (R147, R29), keeping the canonical form: addresses rise, and a cell that holds its reset content is
not listed. -/
def writeByte (m : Memory) (a : Nat) (b : Byte) : Memory :=
  if b = resetByte a then eraseByte m a else insertCell (eraseByte m a) a b

/-- Writes bytes to ascending addresses from `a` on (R28, 43_index_memory.md R85, R86; 47_orchestrator.md R107). -/
def writeBytes : Memory → Nat → List Byte → Memory
  | m, _, []      => m
  | m, a, b :: bs => writeBytes (writeByte m a b) (a + 1) bs

/-- The canonical form: addresses rise strictly and lie in the address space, and no entry equals what an unlisted
address reads as. -/
abbrev Memory.wf (m : Memory) : Prop :=
  m.Pairwise (fun c d => c.1 < d.1) ∧ ∀ c ∈ m, c.1 < Config.memSize ∧ c.2 ≠ resetByte c.1

/-- `MemRead(a, 2)`: the word fetched at `a`, high byte first (R28). -/
def readWord (m : Memory) (a : Nat) : Word := wordOfBytes (readByte m a) (readByte m (a + 1))

end Sys2Proof.Machine
end

