-- ==== Sys2Proof/Machine/Ops.lean ====
section
/-! DEFINITION. The named operations over registers and the framebuffer, the ends an instruction can have
(40_step.md R56), and raising a fault, the one shared operation this machine has in place of taking an exception
(R57; 60_exceptions.md R131). There is no return from a fault (R132: nothing was saved, nothing is restored), so no
operation stands beside it: the next step fetches at the same `pc`. -/

namespace Sys2Proof.Machine

/-- What a meaning, the engine step and the orchestrator step answer. -/
abbrev Result := Host.Outcome State Fault Refusal

/-! ### General registers (10_state.md R5) -/

/-- `V[r]`. -/
def Guest.getV (g : Guest) (r : Reg) : Byte := g.V[r]

/-- `V[r] <- v`. -/
def Guest.setV (g : Guest) (r : Reg) (v : Byte) : Guest := { g with V := g.V.set r v }

/-- The number of `VF` (R6). -/
def regF : Reg := 15

/-! ### The framebuffer (R13, 44_display.md R88) -/

/-- `fb[px, py]`, for `px < 64`; rows are taken modulo 32, so every cell has an address. -/
def Framebuffer.pixel (fb : Framebuffer) (px py : Nat) : Bool :=
  (fb[py % 32]'(Nat.mod_lt _ (by decide))).getLsbD px

/-- `fb[px, py] <- fb[px, py] ^ 1`. -/
def Framebuffer.toggle (fb : Framebuffer) (px py : Nat) : Framebuffer :=
  fb.set (py % 32) (fb[py % 32]'(Nat.mod_lt _ (by decide)) ^^^ BitVec.twoPow 64 px) (Nat.mod_lt _ (by decide))

/-- The framebuffer with every cell off (R89). -/
def Framebuffer.blank : Framebuffer := Vector.replicate 32 0

/-- The 32-bit colour a renderer sees for a cell (R13, R111). -/
def Framebuffer.color (fb : Framebuffer) (px py : Nat) : BitVec 32 :=
  if fb.pixel px py then Config.colorOn else Config.colorOff

/-! ### The ends of an instruction (40_step.md R53 phases 7 and 8, R56) -/

/-- The instruction ends with an outcome that commits `next_pc` (R56): the guest it leaves, with `pc <- next`. -/
def commit (s : State) (g : Guest) (next : Word) (o : StepOutcome) : Result :=
  .next { s with guest := { g with pc := next }, outcome := o }

/-- `Success`, with `next_pc` at the tentative `pc + 2` (R53 phase 5, R59). -/
def succeed (s : State) (g : Guest) : Result := commit s g (s.guest.pc + 2) .success

/-- `Success`, with `next_pc` assigned by the instruction. -/
def succeedAt (s : State) (g : Guest) (next : Word) : Result := commit s g next .success

/-- `Success` of a skip: `pc + 4` where the condition holds, `pc + 2` where not, whatever the skipped word is (R59). -/
def succeedSkip (s : State) (cond : Bool) : Result :=
  succeedAt s s.guest (if cond then s.guest.pc + 4 else s.guest.pc + 2)

/-- `raise f` after the guest has become `g`: the writes made so far stay, `pc` stays on the instruction, the outcome is
the fault, and nothing else happens: nothing is saved, masked or redirected (R57, R131). -/
def raiseAfter (s : State) (g : Guest) (f : Fault) : Result :=
  .next { s with guest := { g with pc := s.guest.pc }, outcome := .fault f }

/-- `raise f` before any write: the Guest State is unchanged (R57). -/
def raise (s : State) (f : Fault) : Result := raiseAfter s s.guest f

/-! ### The oracle (42_load_alu.md R80) -/

/-- `rand()`: the oracle's next byte, and the state with one byte more drawn (assumption log 3). -/
def drawRand (s : State) : Byte × State :=
  (Config.randByte s.randUsed, { s with randUsed := s.randUsed + 1 })

end Sys2Proof.Machine
end

