-- ==== Sys2Proof/Machine/Operands.lean ====
section
/-! DEFINITION. Operand forms. Registers are read once, before any write (40_step.md R54): every meaning reads the
guest of the state it is given. Immediates are zero-extended, never scaled or sign-extended (30_encoding.md R43). Data in
memory is addressed through `I` with a constant offset (43_index_memory.md, template). -/

namespace Sys2Proof.Machine

/-- `zext_16(v)` (R43, R147). -/
def zext16 (v : Byte) : Word := v.setWidth 16

/-- The effective address `I + offset`, a natural number, reduced by nothing (20_memory.md R31). -/
def Guest.effectiveAddress (g : Guest) (offset : Nat) : Nat := g.I.toNat + offset

/-- An effective address lies outside memory: "exceeds the memory bound" (R31, decision D10). -/
def outOfMemory (a : Nat) : Bool := decide (a > Config.memTop)

/-- The key a register names, if its whole 8-bit value is a key index (45_keypad_timers.md R91). -/
def keyIndex (v : Byte) : Option (Fin 16) :=
  if h : v.toNat < 16 then some ⟨v.toNat, h⟩ else none

/-- The address of a font glyph; the digit is the whole byte (43_index_memory.md R84, decision D13). -/
def glyphAddress (v : Byte) : Word := BitVec.ofNat 16 (Config.fontBase + v.toNat * Config.glyphBytes)

/-- The three decimal digits, hundreds first (R85, decision D12). -/
def bcdDigits (v : Byte) : List Byte :=
  [BitVec.ofNat 8 (v.toNat / 100), BitVec.ofNat 8 (v.toNat / 10 % 10), BitVec.ofNat 8 (v.toNat % 10)]

/-- `V[0]` to `V[x]`, in order (R86). -/
def Guest.regsUpTo (g : Guest) (x : Reg) : List Byte := g.V.toList.take (x.val + 1)

/-- `V` after its first `n` registers were loaded, in order, from the bytes at `a`, `a + 1`, … (R87). -/
def loadFrom (m : Memory) (a : Nat) : Nat → Vector Byte 16 → Vector Byte 16
  | 0, V     => V
  | n + 1, V => (loadFrom m a n V).setIfInBounds n (readByte m (a + n))

end Sys2Proof.Machine
end

