-- ==== Sys2Proof/Machine/Flags.lean ====
section
/-! DEFINITION. The flag computations: `VF` is the one flag, an ordinary register written with 0 or 1 (10_state.md R6).
The flag is written first and the result second, so that a destination `VF` keeps the result (40_step.md R55). -/

namespace Sys2Proof.Machine

/-- The value a flag write puts into `VF`: 0 or 1 (R6). -/
def flagByte (b : Bool) : Byte := if b then 1 else 0

/-- Carry out of an addition: the unmasked sum exceeds 255 (42_load_alu.md R75). -/
def carryOut (a b : Byte) : Bool := decide (a.toNat + b.toNat > 255)

/-- The subtraction flag: minuend strictly greater than subtrahend (R76, R78; 90_conflicts.md C3). -/
def minuendGreater (minuend subtrahend : Byte) : Bool := decide (minuend.toNat > subtrahend.toNat)

/-- The bit a right shift shifts out (R77). -/
def bit0 (v : Byte) : Bool := v.getLsbD 0

/-- The bit a left shift shifts out (R79). -/
def bit7 (v : Byte) : Bool := v.getLsbD 7

/-- Writes the flag, then the result (R55). -/
def Guest.setFlagThen (g : Guest) (flag : Bool) (x : Reg) (v : Byte) : Guest :=
  (g.setV regF (flagByte flag)).setV x v

end Sys2Proof.Machine
end

