-- ==== Sys2Proof/Machine/Control.lean ====
section
/-! DEFINITION. Control transfer (41_control_transfer.md R60 to R67). No target is aligned or range-checked. -/

namespace Sys2Proof.Machine

/-- `RET` (R60): pops the whole 16-bit slot, which keeps its value. -/
def execRet (s : State) : Result :=
  match s.guest.sp with
  | .empty => raise s .stackUnderflow
  | .top k =>
    succeedAt s { s.guest with sp := if h : k.val = 0 then .empty else .top ⟨k.val - 1, by omega⟩ } s.guest.stack[k]

/-- `JP addr` (R61). -/
def execJp (addr : Word) (s : State) : Result := succeedAt s s.guest addr

/-- The guest after a push of `v` onto slot `k`, which becomes the top (10_state.md R9, R10). -/
def Guest.push (g : Guest) (k : Fin 16) (v : Word) : Guest :=
  { g with sp := .top k, stack := g.stack.set k v }

/-- `CALL addr` (R62): pushes the address of the instruction after the `CALL`. -/
def execCall (addr : Word) (s : State) : Result :=
  match s.guest.sp with
  | .empty => succeedAt s (s.guest.push 0 (s.guest.pc + 2)) addr
  | .top k =>
    if h : k.val < 15 then succeedAt s (s.guest.push ⟨k.val + 1, by omega⟩ (s.guest.pc + 2)) addr
    else raise s .stackOverflow

/-- `SE Vx, byte` (R63). -/
def execSeImm (x : Reg) (byte : Byte) (s : State) : Result :=
  succeedSkip s (decide (s.guest.getV x = byte))

/-- `SNE Vx, byte` (R64). -/
def execSneImm (x : Reg) (byte : Byte) (s : State) : Result :=
  succeedSkip s (decide (s.guest.getV x ≠ byte))

/-- `SE Vx, Vy` (R65). -/
def execSeReg (x y : Reg) (s : State) : Result :=
  succeedSkip s (decide (s.guest.getV x = s.guest.getV y))

/-- `SNE Vx, Vy` (R66). -/
def execSneReg (x y : Reg) (s : State) : Result :=
  succeedSkip s (decide (s.guest.getV x ≠ s.guest.getV y))

/-- `JP V0, addr` (R67): the sum is not reduced modulo 4096. -/
def execJpV0 (addr : Word) (s : State) : Result :=
  succeedAt s s.guest (addr + zext16 (s.guest.getV 0))

end Sys2Proof.Machine
end

