-- ==== Sys2Proof/Machine/Display.lean ====
section
/-! DEFINITION. The display (44_display.md R88 to R90). -/

namespace Sys2Proof.Machine

/-- `CLS` (R89). -/
def execCls (s : State) : Result := succeed s { s.guest with fb := Framebuffer.blank }

/-- A drawing in progress: the framebuffer, and whether a pixel has gone from on to off so far (R90). -/
structure Drawing where
  fb       : Framebuffer
  collided : Bool
  deriving DecidableEq, Repr

/-- The column a bit of a sprite row lands in: every pixel wraps, not only the origin (R88). -/
def pixelColumn (vx : Byte) (col : Nat) : Nat := (vx.toNat + col) % Config.fbWidth

/-- The row of the framebuffer a sprite row lands in (R88). -/
def pixelRow (vy : Byte) (row : Nat) : Nat := (vy.toNat + row) % Config.fbHeight

/-- One bit of a sprite row: bit 7 of the byte is column 0 (R88). A 1 bit toggles its pixel and notes a collision when
the pixel was on; a 0 bit leaves its pixel alone (R90). -/
def drawBit (b vx vy : Byte) (row col : Nat) (d : Drawing) : Drawing :=
  if b.getLsbD (7 - col) then
    let px := pixelColumn vx col
    let py := pixelRow vy row
    { fb := d.fb.toggle px py, collided := d.collided || d.fb.pixel px py }
  else d

/-- The first `n` columns of a sprite row, in order. -/
def drawCols (b vx vy : Byte) (row : Nat) : Nat → Drawing → Drawing
  | 0, d     => d
  | n + 1, d => drawBit b vx vy row n (drawCols b vx vy row n d)

/-- One sprite row: its eight columns (R90). -/
def drawRow (b vx vy : Byte) (row : Nat) (d : Drawing) : Drawing := drawCols b vx vy row 8 d

/-- `n` more sprite rows from row `row` on: each row's address is tested before that row is read, and the first
address above 4095 ends the drawing with a fault (R90). The answer says whether every row was drawn. -/
def drawRows (m : Memory) (i : Nat) (vx vy : Byte) : Nat → Nat → Drawing → Drawing × Bool
  | 0, _, d       => (d, true)
  | n + 1, row, d =>
    if outOfMemory (i + row) then (d, false)
    else drawRows m i vx vy n (row + 1) (drawRow (readByte m (i + row)) vx vy row d)

/-- `DRW Vx, Vy, nibble` (R90). `VF` is the collision flag of the rows drawn, also when a later row faults
(decision D14). -/
def execDrw (x y : Reg) (n : Nat) (s : State) : Result :=
  let g := s.guest
  let r := drawRows g.mem g.I.toNat (g.getV x) (g.getV y) n 0 { fb := g.fb, collided := false }
  let g' := { g.setV regF (flagByte r.1.collided) with fb := r.1.fb }
  if r.2 then succeed s g' else raiseAfter s g' .invalidSpriteLocation

end Sys2Proof.Machine
end

