-- ==== Sys2Proof/Machine/IndexMemory.lean ====
section
/-! DEFINITION. The index register and memory (43_index_memory.md R82 to R87). Each memory instruction tests its last
address before its first transfer (R123), and none changes `I` as a side effect. -/

namespace Sys2Proof.Machine

/-- `LD I, addr` (R82). -/
def execLdI (addr : Word) (s : State) : Result := succeed s { s.guest with I := addr }

/-- `ADD I, Vx` (R83): modulo `2^16`, no flag. -/
def execAddI (x : Reg) (s : State) : Result :=
  succeed s { s.guest with I := s.guest.I + zext16 (s.guest.getV x) }

/-- `LD F, Vx` (R84). -/
def execLdF (x : Reg) (s : State) : Result :=
  succeed s { s.guest with I := glyphAddress (s.guest.getV x) }

/-- Stores bytes at `I`, `I + 1`, … when the last of their addresses lies in memory, and raises
`InvalidMemoryLocation` with nothing stored when not (R85, R86, R123). -/
def storeAtI (s : State) (bytes : List Byte) (lastOffset : Nat) : Result :=
  if outOfMemory (s.guest.effectiveAddress lastOffset) then raise s .invalidMemoryLocation
  else succeed s { s.guest with mem := writeBytes s.guest.mem (s.guest.effectiveAddress 0) bytes }

/-- `LD B, Vx` (R85). -/
def execLdB (x : Reg) (s : State) : Result := storeAtI s (bcdDigits (s.guest.getV x)) 2

/-- `LD [I], Vx` (R86). -/
def execStoreRegs (x : Reg) (s : State) : Result := storeAtI s (s.guest.regsUpTo x) x.val

/-- `LD Vx, [I]` (R87). -/
def execLoadRegs (x : Reg) (s : State) : Result :=
  if outOfMemory (s.guest.effectiveAddress x.val) then raise s .invalidMemoryLocation
  else succeed s
    { s.guest with V := loadFrom s.guest.mem (s.guest.effectiveAddress 0) (x.val + 1) s.guest.V }

end Sys2Proof.Machine
end

