-- ==== Sys2Proof/Machine/KeypadTimers.lean ====
section
/-! DEFINITION. The keypad and the timers (45_keypad_timers.md R91 to R96). The countdown is the orchestrator's. -/

namespace Sys2Proof.Machine

/-- `SKP Vx` (R91). -/
def execSkp (x : Reg) (s : State) : Result :=
  match keyIndex (s.guest.getV x) with
  | none   => raise s .invalidKey
  | some k => succeedSkip s s.guest.key[k]

/-- `SKNP Vx` (R92). -/
def execSknp (x : Reg) (s : State) : Result :=
  match keyIndex (s.guest.getV x) with
  | none   => raise s .invalidKey
  | some k => succeedSkip s (!s.guest.key[k])

/-- `LD Vx, DT` (R93). -/
def execLdVxDT (x : Reg) (s : State) : Result := succeed s (s.guest.setV x s.guest.DT)

/-- `LD Vx, K` (R94): the step that starts the wait commits `pc + 2`, with the outcome `HaltedOnKeyPress` (R56). -/
def execLdVxK (x : Reg) (s : State) : Result :=
  commit s { s.guest with halted := true, kpr := x } (s.guest.pc + 2) .haltedOnKeyPress

/-- `LD DT, Vx` (R95). -/
def execLdDTVx (x : Reg) (s : State) : Result := succeed s { s.guest with DT := s.guest.getV x }

/-- `LD ST, Vx` (R96): emits no event. -/
def execLdSTVx (x : Reg) (s : State) : Result := succeed s { s.guest with ST := s.guest.getV x }

end Sys2Proof.Machine
end

