-- ==== Sys2Proof/Machine/LoadAlu.lean ====
section
/-! DEFINITION. Load immediate, arithmetic, logic, random (42_load_alu.md R68 to R80). None of them can fault, touches memory
or assigns `next_pc`. -/

namespace Sys2Proof.Machine

/-- `LD Vx, byte` (R69). -/
def execLdImm (x : Reg) (byte : Byte) (s : State) : Result := succeed s (s.guest.setV x byte)

/-- `ADD Vx, byte` (R70): no flag. -/
def execAddImm (x : Reg) (byte : Byte) (s : State) : Result :=
  succeed s (s.guest.setV x (s.guest.getV x + byte))

/-- `LD Vx, Vy` (R71). -/
def execLdReg (x y : Reg) (s : State) : Result := succeed s (s.guest.setV x (s.guest.getV y))

/-- `OR Vx, Vy` (R72): no flag. -/
def execOrReg (x y : Reg) (s : State) : Result :=
  succeed s (s.guest.setV x (s.guest.getV x ||| s.guest.getV y))

/-- `AND Vx, Vy` (R73): no flag. -/
def execAndReg (x y : Reg) (s : State) : Result :=
  succeed s (s.guest.setV x (s.guest.getV x &&& s.guest.getV y))

/-- `XOR Vx, Vy` (R74): no flag. -/
def execXorReg (x y : Reg) (s : State) : Result :=
  succeed s (s.guest.setV x (s.guest.getV x ^^^ s.guest.getV y))

/-- `ADD Vx, Vy` (R75). -/
def execAddReg (x y : Reg) (s : State) : Result :=
  let vx := s.guest.getV x
  let vy := s.guest.getV y
  succeed s (s.guest.setFlagThen (carryOut vx vy) x (vx + vy))

/-- `SUB Vx, Vy` (R76). -/
def execSubReg (x y : Reg) (s : State) : Result :=
  let vx := s.guest.getV x
  let vy := s.guest.getV y
  succeed s (s.guest.setFlagThen (minuendGreater vx vy) x (vx - vy))

/-- `SHR Vx` (R77): in place, a zero enters at the top. -/
def execShr (x : Reg) (s : State) : Result :=
  let vx := s.guest.getV x
  succeed s (s.guest.setFlagThen (bit0 vx) x (vx >>> 1))

/-- `SUBN Vx, Vy` (R78): the destination is still `V[x]`. -/
def execSubnReg (x y : Reg) (s : State) : Result :=
  let vx := s.guest.getV x
  let vy := s.guest.getV y
  succeed s (s.guest.setFlagThen (minuendGreater vy vx) x (vy - vx))

/-- `SHL Vx` (R79): in place, a zero enters at the bottom. -/
def execShl (x : Reg) (s : State) : Result :=
  let vx := s.guest.getV x
  succeed s (s.guest.setFlagThen (bit7 vx) x (vx <<< 1))

/-- `RND Vx, byte` (R80): the oracle's byte under the mask. -/
def execRnd (x : Reg) (byte : Byte) (s : State) : Result :=
  let (r, t) := drawRand s
  succeed t (t.guest.setV x (r &&& byte))

end Sys2Proof.Machine
end

