-- ==== Sys2Proof/Machine/Engine.lean ====
section
/-! DEFINITION. The engine step (40_step.md R53): halted test, fetch bound, fetch, decode, execute. -/

namespace Sys2Proof.Machine

/-- `pc > 4094`: the two bytes of an instruction do not both exist (20_memory.md R32). -/
def Guest.fetchOut (g : Guest) : Bool := decide (g.pc.toNat > Config.pcMax)

/-- The word at `pc` (R53 phase 3). It is fetched anew at every step (20_memory.md R38). -/
def Guest.fetch (g : Guest) : Word := readWord g.mem g.pc.toNat

/-- Phases 4 to 8: decode the word and run its instruction, or raise `InvalidInstruction` (R120). -/
def executeWord (w : Word) (s : State) : Result :=
  match decodeWord w with
  | .error _ => raise s .invalidInstruction
  | .ok i    => exec i s

/-- The engine step (R53, R58, R126). -/
def engineStep (s : State) : Result :=
  if s.guest.halted then .next { s with outcome := .haltedOnKeyPress }
  else if s.guest.fetchOut then raise s .fetchOutOfRange
  else executeWord s.guest.fetch s

end Sys2Proof.Machine
end

