-- ==== Sys2Proof/Machine/Orchestrator.lean ====
section
/-! DEFINITION. The orchestrator step (47_orchestrator.md R101): breakpoint check, timer cadence, engine step, frame count. -/

namespace Sys2Proof.Machine

/-- Consults the breakpoint store at `pc` (R102): `none` on a miss; on a hit the store after it, without the oldest entry
at `pc` when that entry is one-shot. -/
def takeBreakpoint (pc : Word) : List Breakpoint → Option (List Breakpoint)
  | []      => none
  | e :: es =>
    if e.addr = pc then
      match e.disposition with
      | .clearAfterTrigger => some es
      | .preserve          => some (e :: es)
    else (takeBreakpoint pc es).map (fun rest => e :: rest)

/-- One decrement opportunity of a timer: toward zero, staying there (R109). -/
def countDown (t : Byte) : Byte := if t.toNat > 0 then t - 1 else t

/-- The duration of a tone request: the exact rational `ST * 1000 / 60` (R110, decision D23). -/
def toneDurationMs (st : Byte) : Rat := (st.toNat : Rat) * 1000 / 60

/-- A tone starts at a tick that finds `ST` nonzero while no tone is being emitted (R109, R110). -/
def State.toneStarts (s : State) : Bool := decide (s.guest.ST.toNat > 0) && !s.orch.emittingTone

/-- The tick (R109): both timers count down, a tone that starts is requested with the `ST` found, and the tone flag is
set by a start and cleared when `ST` has reached zero. -/
def tick (s : State) : State :=
  let st := countDown s.guest.ST
  { s with
    guest  := { s.guest with DT := countDown s.guest.DT, ST := st }
    orch   := { s.orch with emittingTone := (s.orch.emittingTone || s.toneStarts) && decide (st.toNat > 0) }
    events := s.events ++ (if s.toneStarts then [.toneRequest (toneDurationMs s.guest.ST)] else []) }

/-- Phase 2 (R101, R108): the cadence counter, and a tick when it reaches the divisor. -/
def timerPhase (s : State) : State :=
  if s.orch.timerStepCounter + 1 ≥ s.orch.timerDivisor then
    tick { s with orch := { s.orch with timerStepCounter := 0 } }
  else { s with orch := { s.orch with timerStepCounter := s.orch.timerStepCounter + 1 } }

/-- Phase 4 (R101, R106, R111): the frame counter, and a screen update when it reaches the frame boundary. -/
def framePhase (s : State) : State :=
  if s.orch.frameStepCounter + 1 ≥ s.orch.stepsPerFrame then
    { s with
      orch   := { s.orch with frameStepCounter := 0 }
      events := s.events ++ [.screenUpdate s.guest.fb] }
  else { s with orch := { s.orch with frameStepCounter := s.orch.frameStepCounter + 1 } }

/-- Phases 2 to 5: what a step does when no breakpoint stops it. Both counters advance whatever the engine step's outcome
(decision D21). -/
def runPhases (s : State) : Result :=
  match engineStep (timerPhase s) with
  | .next t    => .next (framePhase t)
  | .fault f   => .fault f
  | .refused r => .refused r

/-- The orchestrator step (R101); its events are appended to `s.events`. On a breakpoint match nothing else happens
(R102). -/
def orchStep (s : State) : Result :=
  match takeBreakpoint s.guest.pc s.orch.bps with
  | some bps => .next { s with orch := { s.orch with bps := bps }, outcome := .breakpointReached }
  | none     => runPhases s

/-- The state as a stepping command finds it: no event emitted yet by this command (assumption log 1). -/
def State.beginCommand (s : State) : State := { s with events := [] }

/-- `withFetchWord`'s work: the word stored at `pc`, and nothing between the step and its fetch: a `pc` that can be fetched
from (the program origin in place of one that cannot), no breakpoint there, no key wait. -/
def State.placeWord (s : State) (w : Word) : State :=
  let pc : Word := if s.guest.fetchOut then BitVec.ofNat 16 Config.programOrigin else s.guest.pc
  { s with
    guest := { s.guest with
      pc := pc, halted := false, mem := writeBytes s.guest.mem pc.toNat (bytesOfWord w) }
    orch  := { s.orch with bps := s.orch.bps.filter (fun e => decide (e.addr ≠ pc)) } }

end Sys2Proof.Machine
end

