-- ==== Sys2Proof/Machine/Step.lean ====
section
/-! DEFINITION. One step of the machine: the host command `step` (47_orchestrator.md R97, R101). -/

namespace Sys2Proof.Machine

/-- `step()`: the orchestrator step, whose outcome and events stand in the state it leaves. It always answers `next`: faults
and pauses are outcomes that a step returns (40_step.md R57; 60_exceptions.md R128, R131). -/
def step (s : State) : Host.Outcome State Fault Refusal := orchStep s.beginCommand

/-- `s` with a table word stored where its next step fetches, so that this step fetches and runs exactly that word. -/
def State.withFetchWord (s : State) (nbits w : Nat) : State :=
  s.placeWord (BitVec.ofNat 16 (w % 2 ^ nbits))

end Sys2Proof.Machine
end

