-- ==== Sys2Proof/Machine/Commands.lean ====
section
/-! DEFINITION. The host commands (47_orchestrator.md R97 to R118), one definition each, and `runCommand`, which runs any of
them. Each is one atomic transition that answers a state and a reply (00_scope.md R2). A command that declines
answers the very state it was given (R118); a command outside its domain is refused. Only the stepping commands write
the model's output fields `outcome` and `events` (assumption log 1). -/

namespace Sys2Proof.Machine

/-- The result of a command (Table R97). -/
inductive Reply where
  /-- the command has no result -/
  | done
  /-- `return accepted` -/
  | accepted
  /-- `return rejected` -/
  | rejected
  /-- an outcome -/
  | outcome (o : StepOutcome)
  /-- the number of entries `bp_remove` deleted -/
  | removed (n : Nat)
  deriving DecidableEq, Repr

/-- What a command answers. -/
abbrev CommandResult := Host.Outcome (State × Reply) Fault Refusal

/-- The reply of a stepping command is the outcome of its last step. -/
def withOutcome : Result → CommandResult
  | .next t    => .next (t, .outcome t.outcome)
  | .fault f   => .fault f
  | .refused r => .refused r

/-! ### Timing (R98, R99) -/

/-- `floor(ips / fps)` (R98). -/
def stepsPerFrameOf (ips : Int) (fps : Rat) : Int := ((ips : Rat) / fps).floor

/-- `n / d` rounded to the nearest integer, an exact half upwards (R99; decision D22: away from zero). -/
def roundDiv (n d : Nat) : Nat := (2 * n + d) / (2 * d)

/-- `timer_divisor = max(1, round(ips / 60))` (R99). -/
def timerDivisorOf (ips : Nat) : Nat := max 1 (roundDiv ips Config.timerHz)

/-- The five timing registers for an accepted pair (R98). -/
def Orchestrator.retime (o : Orchestrator) (ips : Int) (fps : Rat) : Orchestrator :=
  { o with
    ips            := ips.toNat
    fps            := fps
    stepsPerFrame  := (stepsPerFrameOf ips fps).toNat
    maxFrameTimeMs := 1000 / fps
    timerDivisor   := timerDivisorOf ips.toNat }

/-- `configure_timing(ips, fps)` (R98): only the five timing registers change. -/
def configureTiming (ips : Int) (fps : Rat) (s : State) : CommandResult :=
  if ips ≤ 0 ∨ fps ≤ 0 then .next (s, .rejected)
  else if stepsPerFrameOf ips fps < 1 then .next (s, .rejected)
  else .next ({ s with orch := s.orch.retime ips fps }, .accepted)

/-! ### Reset and program load (R100, R107) -/

/-- The state after `reset()` (R100): the Guest State of Table R22, both counters 0, the tone flag clear; the timing
registers and the breakpoint store stay. -/
def State.hostReset (s : State) : State :=
  { s with
    guest := Guest.reset
    orch  := { s.orch with frameStepCounter := 0, timerStepCounter := 0, emittingTone := false } }

/-- `reset()` (R100). -/
def resetCommand (s : State) : CommandResult := .next (s.hostReset, .done)

/-- The state after an accepted `load_program` (R107). -/
def State.loaded (s : State) (bytes : List Byte) : State :=
  { s.hostReset with
    guest := { Guest.reset with mem := writeBytes Guest.reset.mem Config.programOrigin bytes } }

/-- `load_program(bytes)` (R107): the length is tested before anything changes. -/
def loadProgram (bytes : List Byte) (s : State) : CommandResult :=
  if bytes.length > Config.maxProgramBytes then .next (s, .rejected)
  else .next (s.loaded bytes, .accepted)

/-! ### Frames (R105) -/

/-- Up to `n` orchestrator steps, stopping at the first outcome that is not `Success` (R105). -/
def runSteps : Nat → State → Result
  | 0, s     => .next { s with outcome := .success }
  | n + 1, s =>
    match orchStep s with
    | .next t    => if t.outcome = .success then runSteps n t else .next t
    | .fault f   => .fault f
    | .refused r => .refused r

/-- `run_for_one_frame()` (R105). -/
def runForOneFrame (s : State) : CommandResult :=
  withOutcome (runSteps s.orch.stepsPerFrame s.beginCommand)

/-! ### Breakpoints (R103, R104, R118) -/

/-- The store holds `BP_CAPACITY` entries already (R103). -/
def storeFull (bps : List Breakpoint) : Bool :=
  match Config.bpCapacity with
  | none   => false
  | some n => decide (bps.length ≥ n)

/-- The state with `(addr, disposition)` appended as the newest entry of the store (R103). -/
def State.appendBreakpoint (s : State) (addr : Word) (disposition : Disposition) : State :=
  { s with orch := { s.orch with bps := s.orch.bps ++ [{ addr := addr, disposition := disposition }] } }

/-- `bp_add(addr, disposition)` (R103). -/
def bpAdd (addr : Word) (disposition : Disposition) (s : State) : CommandResult :=
  if storeFull s.orch.bps then .next (s, .rejected)
  else .next (s.appendBreakpoint addr disposition, .accepted)

/-- `bp_remove(addr)` (R104): every entry at `addr`, and how many there were. -/
def bpRemove (addr : Word) (s : State) : CommandResult :=
  .next
    ({ s with orch := { s.orch with bps := s.orch.bps.filter (fun e => decide (e.addr ≠ addr)) } },
      .removed (s.orch.bps.countP (fun e => decide (e.addr = addr))))

/-- `bp_clear()` (R104). -/
def bpClear (s : State) : CommandResult :=
  .next ({ s with orch := { s.orch with bps := [] } }, .done)

/-! ### Debug commands (R112 to R114) -/

/-- The end of the three debug commands: a one-shot breakpoint at `addr` and `Success`, or a refusal when the store is
full (R118). -/
def plantOneShot (addr : Word) (s : State) : CommandResult :=
  if storeFull s.orch.bps then .refused .breakpointStoreFull
  else .next (s.appendBreakpoint addr .clearAfterTrigger, .outcome .success)

/-- The word is an absolute call: group 2 (R112). -/
def isCall (w : Word) : Bool := decide ((fieldsOf w).group = 2)

/-- The target of a call word (R112). -/
def callTarget (w : Word) : Word := addrOf (fieldsOf w)

/-- The target of the first call at `a`, `a + 2`, … up to 4094, examining at most `n` words (R112). -/
def nextCall (m : Memory) : Nat → Nat → Option Word
  | 0, _     => none
  | n + 1, a =>
    if a > Config.pcMax then none
    else if isCall (readWord m a) then some (callTarget (readWord m a))
    else nextCall m n (a + 2)

/-- `step_into()` (R112). 2048 words are all that lie between 0 and 4094 at a stride of two. -/
def stepInto (s : State) : CommandResult :=
  match nextCall s.guest.mem 2048 s.guest.pc.toNat with
  | none   => .next (s, .outcome (.fault .noSubroutine))
  | some t => plantOneShot t s

/-- Where `step_over` plants its breakpoint (R113): the word at `pc + 2` is examined, and a call there moves the
breakpoint to its target plus one instruction. -/
def stepOverTarget (g : Guest) : Word :=
  let a := g.pc + 2
  if a.toNat ≤ Config.pcMax ∧ isCall (readWord g.mem a.toNat) = true then callTarget (readWord g.mem a.toNat) + 2
  else a

/-- `step_over()` (R113; 90_conflicts.md C9). -/
def stepOver (s : State) : CommandResult := plantOneShot (stepOverTarget s.guest) s

/-- `step_out()` (R114). -/
def stepOut (s : State) : CommandResult :=
  match s.guest.sp with
  | .empty => .next (s, .outcome (.fault .notInSubroutine))
  | .top k => plantOneShot s.guest.stack[k] s

/-! ### Host setters (R115 to R117) -/

/-- The guest after the key notification `(k, pressed)` (R115): the keypad is updated, and a press ends a key wait. -/
def Guest.notifyKey (g : Guest) (k : Fin 16) (pressed : Bool) : Guest :=
  let g' := { g with key := g.key.set k pressed }
  if pressed && g.halted then { g'.setV g.kpr (BitVec.ofNat 8 k.val) with halted := false } else g'

/-- `set_key_state(k, pressed)` (R115). -/
def setKeyState (k : Nat) (pressed : Bool) (s : State) : CommandResult :=
  if h : k < 16 then .next ({ s with guest := s.guest.notifyKey ⟨k, h⟩ pressed }, .done)
  else .refused (.keyOutOfRange k)

/-- `set_pc(v)` (R116): either parity is accepted. -/
def setPc (v : Nat) (s : State) : CommandResult :=
  if v > Config.pcMax then .next (s, .rejected)
  else .next ({ s with guest := { s.guest with pc := BitVec.ofNat 16 v } }, .accepted)

/-- `set_delay_timer(v)` (R117). -/
def setDelayTimer (v : Byte) (s : State) : CommandResult :=
  .next ({ s with guest := { s.guest with DT := v } }, .done)

/-- One host command (Table R97). -/
def runCommand (c : Command) (s : State) : CommandResult :=
  match c with
  | .configureTiming ips fps => configureTiming ips fps s
  | .reset                   => resetCommand s
  | .loadProgram bytes       => loadProgram bytes s
  | .step                    => withOutcome (step s)
  | .runForOneFrame          => runForOneFrame s
  | .stepInto                => stepInto s
  | .stepOver                => stepOver s
  | .stepOut                 => stepOut s
  | .setKeyState k pressed   => setKeyState k pressed s
  | .setPc v                 => setPc v s
  | .setDelayTimer v         => setDelayTimer v s
  | .bpAdd addr d            => bpAdd addr d s
  | .bpRemove addr           => bpRemove addr s
  | .bpClear                 => bpClear s

/-- The numeric code of an outcome (60_exceptions.md Table R119, decision D27). -/
def StepOutcome.code : StepOutcome → Nat
  | .success                      => 0
  | .haltedOnKeyPress             => 1
  | .breakpointReached            => 2
  | .fault .invalidInstruction    => 3
  | .fault .invalidKey            => 4
  | .fault .invalidSpriteLocation => 5
  | .fault .invalidMemoryLocation => 6
  | .fault .stackUnderflow        => 7
  | .fault .stackOverflow         => 8
  | .fault .noSubroutine          => 9
  | .fault .notInSubroutine       => 10
  | .fault .fetchOutOfRange       => 11

end Sys2Proof.Machine
end

