-- ==== Sys2Proof/Safety.lean ====
section
/-! DEFINITION. The terms claims are stated in: the machine's invariant, what a safe step is, the frames of
instructions, the pixels a sprite covers, runs of successful steps, and the illegal words of 30_encoding.md R50. -/

namespace Sys2Proof.Machine

/-! ### The invariant -/

/-- The timing registers agree with each other, as every write of them makes them (10_state.md R16;
47_orchestrator.md R98, R99). -/
structure Orchestrator.TimingOk (o : Orchestrator) : Prop where
  ips_pos   : 0 < o.ips
  fps_pos   : 0 < o.fps
  spf       : (o.stepsPerFrame : Int) = stepsPerFrameOf o.ips o.fps
  spf_pos   : 1 ≤ o.stepsPerFrame
  divisor   : o.timerDivisor = timerDivisorOf o.ips
  frameTime : o.maxFrameTimeMs = 1000 / o.fps

/-- The step counters lie in their ranges (R17). -/
structure Orchestrator.CountersOk (o : Orchestrator) : Prop where
  frame : o.frameStepCounter < o.stepsPerFrame
  timer : o.timerStepCounter < o.timerDivisor

/-- The breakpoint store holds no more than `BP_CAPACITY` entries (R19). -/
def StoreFits (bps : List Breakpoint) : Prop := ∀ n, Config.bpCapacity = some n → bps.length ≤ n

/-- What every transition of the machine keeps: memory is in canonical form (so no cell above address 4095 exists), the
timing registers agree, the breakpoint store fits. -/
structure State.Sound (s : State) : Prop where
  mem    : s.guest.mem.wf
  timing : s.orch.TimingOk
  store  : StoreFits s.orch.bps

/-- The invariant of a run of steps: sound, and both counters in range. -/
structure State.Inv (s : State) : Prop where
  sound    : s.Sound
  counters : s.orch.CountersOk

/-- The last step raised no fault (60_exceptions.md R119; glossary of 00_scope.md). -/
def State.Safe (s : State) : Prop := ∀ f, s.outcome ≠ .fault f

/-! ### Frames -/

/-- `t` is `s` after an instruction that completed with `Success` and `next_pc = next`, and that changed nothing else but
the general registers that `dst` names. -/
def ChangesOnlyV (s t : State) (next : Word) (dst : Reg → Prop) : Prop :=
  t = { s with guest := { s.guest with V := t.guest.V, pc := next }, outcome := .success } ∧
  ∀ r, ¬ dst r → t.guest.getV r = s.guest.getV r

/-- `t` is `s` after an instruction that completed with `Success` at `pc + 2` and stored `n` bytes from address `a` on:
every byte outside them reads as before, and nothing else changed. -/
def ChangesOnlyBytes (s t : State) (a n : Nat) : Prop :=
  t = { s with guest := { s.guest with mem := t.guest.mem, pc := s.guest.pc + 2 }, outcome := .success } ∧
  ∀ b, b < a ∨ a + n ≤ b → readByte t.guest.mem b = readByte s.guest.mem b

/-- `t` is `s` after a fault raised before any write: nothing changed but the outcome the step returns. -/
def Faults (s t : State) (f : Fault) : Prop := t = { s with outcome := .fault f }

/-- The return-address slot `k` of the call stack; 0 outside it. -/
def Guest.slot (g : Guest) (k : Nat) : Word := if h : k < 16 then g.stack[k] else 0

end Sys2Proof.Machine

namespace Sys2Proof

/-- The general registers an instruction may write: its explicit destination, the registers it loads in bulk, and `VF`
where it writes it as a side effect (10_state.md R5, R6; 43_index_memory.md R87). -/
def Instr.MayWriteV (i : Instr) (r : Reg) : Prop :=
  match i with
  | .cls           => False
  | .ret           => False
  | .jp _          => False
  | .call _        => False
  | .seImm _ _     => False
  | .sneImm _ _    => False
  | .seReg _ _     => False
  | .ldImm x _     => r = x
  | .addImm x _    => r = x
  | .ldReg x _     => r = x
  | .orReg x _     => r = x
  | .andReg x _    => r = x
  | .xorReg x _    => r = x
  | .addReg x _    => r = x ∨ r = 15
  | .subReg x _    => r = x ∨ r = 15
  | .shr x         => r = x ∨ r = 15
  | .subnReg x _   => r = x ∨ r = 15
  | .shl x         => r = x ∨ r = 15
  | .sneReg _ _    => False
  | .ldI _         => False
  | .jpV0 _        => False
  | .rnd x _       => r = x
  | .drw _ _ _     => r = 15
  | .skp _         => False
  | .sknp _        => False
  | .ldVxDT x      => r = x
  | .ldVxK _       => False
  | .ldDTVx _      => False
  | .ldSTVx _      => False
  | .addI _        => False
  | .ldF _         => False
  | .ldB _         => False
  | .storeRegs _   => False
  | .loadRegs x    => r ≤ x

/-- The instructions that assign `next_pc`: the jumps, `CALL`, `RET` and the skips (40_step.md R56). -/
def Instr.AssignsNextPc (i : Instr) : Prop :=
  match i with
  | .cls           => False
  | .ret           => True
  | .jp _          => True
  | .call _        => True
  | .seImm _ _     => True
  | .sneImm _ _    => True
  | .seReg _ _     => True
  | .ldImm _ _     => False
  | .addImm _ _    => False
  | .ldReg _ _     => False
  | .orReg _ _     => False
  | .andReg _ _    => False
  | .xorReg _ _    => False
  | .addReg _ _    => False
  | .subReg _ _    => False
  | .shr _         => False
  | .subnReg _ _   => False
  | .shl _         => False
  | .sneReg _ _    => True
  | .ldI _         => False
  | .jpV0 _        => True
  | .rnd _ _       => False
  | .drw _ _ _     => False
  | .skp _         => True
  | .sknp _        => True
  | .ldVxDT _      => False
  | .ldVxK _       => False
  | .ldDTVx _      => False
  | .ldSTVx _      => False
  | .addI _        => False
  | .ldF _         => False
  | .ldB _         => False
  | .storeRegs _   => False
  | .loadRegs _    => False

end Sys2Proof

namespace Sys2Proof.Machine

/-! ### Sprites (44_display.md R88, R90) -/

/-- One of the first `rows` rows of the sprite at address `i` has a 1 bit that lands on the cell `(px, py)` when drawn at
`(vx, vy)`. -/
def Covers (m : Memory) (i : Nat) (vx vy : Byte) (rows px py : Nat) : Prop :=
  ∃ row col, row < rows ∧ col < 8 ∧ (vx.toNat + col) % 64 = px ∧ (vy.toNat + row) % 32 = py ∧
    (readByte m (i + row)).getLsbD (7 - col) = true

/-- `t` shows the framebuffer of `s` with the first `rows` rows of the sprite exclusive-ored in, and its `VF` says whether
a pixel went from on to off. -/
def Drawn (s t : State) (vx vy : Byte) (rows : Nat) : Prop :=
  (∀ px py, px < 64 → py < 32 →
    (t.guest.fb.pixel px py = true ↔
      ¬ (s.guest.fb.pixel px py = true ↔ Covers s.guest.mem s.guest.I.toNat vx vy rows px py))) ∧
  ((∃ px py, s.guest.fb.pixel px py = true ∧ Covers s.guest.mem s.guest.I.toNat vx vy rows px py) →
    t.guest.getV 15 = 1) ∧
  (¬ (∃ px py, s.guest.fb.pixel px py = true ∧ Covers s.guest.mem s.guest.I.toNat vx vy rows px py) →
    t.guest.getV 15 = 0)

/-! ### Runs -/

/-- `n` orchestrator steps in a row, each with the outcome `Success`, lead from one state to another. -/
inductive SuccessfulSteps : Nat → State → State → Prop where
  | none (s : State) : SuccessfulSteps 0 s s
  | more {n : Nat} {s t u : State} :
    SuccessfulSteps n s t → orchStep t = .next u → u.outcome = .success → SuccessfulSteps (n + 1) s u

/-! ### Illegal words (30_encoding.md R50) -/

/-- The words R50 lists: group 0, E and F with a `byte`, group 8 with a `nibble`, that selects no instruction. -/
def IllegalWord (w : Word) : Prop :=
  (w.toNat / 4096 = 0x0 ∧ w.toNat % 256 ∉ [0xE0, 0xEE]) ∨
  (w.toNat / 4096 = 0x8 ∧ w.toNat % 16 ∈ [0x8, 0x9, 0xA, 0xB, 0xC, 0xD, 0xF]) ∨
  (w.toNat / 4096 = 0xE ∧ w.toNat % 256 ∉ [0x9E, 0xA1]) ∨
  (w.toNat / 4096 = 0xF ∧ w.toNat % 256 ∉ [0x07, 0x0A, 0x15, 0x18, 0x1E, 0x29, 0x33, 0x55, 0x65])

end Sys2Proof.Machine
end

