-- ==== Sys2Proof/Certificates/Slice0/Obligations.lean ====
section
/-! DEFINITION. The statements for the provers. A docstring names the rule or the section a statement formalises, and every
decision of the spec's own (92_eei_decisions.md) or choice of the model (notes/assumptions) that it rests on. -/

open Sys2Proof Sys2Proof.Machine

/-! ### Decoding and encoding -/

/-- 30_encoding.md R40: the seven values are the bit slices, and they overlap as the rule says. -/
def Obligations.DecoderFieldsAreTheBitSlices : Prop :=
  ∀ w : Word,
    (fieldsOf w).group.toNat = w.toNat / 4096 ∧
    (fieldsOf w).x.toNat = w.toNat / 256 % 16 ∧
    (fieldsOf w).y.toNat = w.toNat / 16 % 16 ∧
    (fieldsOf w).address.toNat = w.toNat % 4096 ∧
    (fieldsOf w).byte.toNat = w.toNat % 256 ∧
    (fieldsOf w).nibble.toNat = w.toNat % 16 ∧
    (fieldsOf w).raw = w ∧
    (fieldsOf w).address.toNat = (fieldsOf w).x.toNat * 256 + (fieldsOf w).byte.toNat ∧
    (fieldsOf w).byte.toNat = (fieldsOf w).y.toNat * 16 + (fieldsOf w).nibble.toNat ∧
    w.toNat = (fieldsOf w).group.toNat * 4096 + (fieldsOf w).address.toNat

/-- 30_encoding.md sections 1 and 2 (the opcode numbers are decision D1, marked as general knowledge): words written out
from Table R45 decode to the instructions they stand for. -/
def Obligations.SampleWordsDecodeAsTheTableSays : Prop :=
  decodeWord 0x0AE0 = .ok .cls ∧
  decodeWord 0x00EE = .ok .ret ∧
  decodeWord 0x1ABC = .ok (.jp 0x0ABC) ∧
  decodeWord 0x332A = .ok (.seImm 3 0x2A) ∧
  decodeWord 0x5121 = .ok (.seReg 1 2) ∧
  decodeWord 0x8AB7 = .ok (.subnReg 10 11) ∧
  decodeWord 0x8126 = .ok (.shr 1) ∧
  decodeWord 0xA300 = .ok (.ldI 0x0300) ∧
  decodeWord 0xD345 = .ok (.drw 3 4 5) ∧
  decodeWord 0xE29E = .ok (.skp 2) ∧
  decodeWord 0xF50A = .ok (.ldVxK 5) ∧
  decodeWord 0x0000 = .error (.illegalGroup0 0)

/-- 30_encoding.md sections 1 and 2 (decisions D1, D2): no bit of a well-formed instruction's operands is lost by its
encoding, and the decoder takes exactly the instruction's two bytes off the front of any byte sequence. -/
def Obligations.DecodingAnEncodedInstructionGivesItBack : Prop :=
  ∀ i : Instr, i.wf = true →
    decodeWord (encode i) = .ok i ∧
    ∀ rest : List Byte, decode (bytesOfWord (encode i) ++ rest) = .ok (i, rest)

/-- 30_encoding.md section 2 (decisions D1, D2, D3), the ignored bits: a legal word decodes to a well-formed instruction
whose encoding is that word with the instruction's ignored bits cleared, and two words that differ only in those
bits select the same instruction. So every other bit is either opcode or operand. That the encoder puts 0 into the
ignored bits is the model's choice (assumption log 7). -/
def Obligations.EncodingADecodedWordLosesOnlyItsIgnoredBits : Prop :=
  ∀ (w : Word) (i : Instr), decodeWord w = .ok i →
    i.wf = true ∧
    encode i = w &&& ~~~ i.ignoredBits ∧
    ∀ v : Word, v &&& ~~~ i.ignoredBits = w &&& ~~~ i.ignoredBits → decodeWord v = .ok i

/-- 30_encoding.md section 2 (decision D1): the dispatch on `group` and a secondary opcode selects an instruction
exactly when the word matches that instruction's row of Table R45 under its mask, and no word matches two rows. -/
def Obligations.DispatchAgreesWithTheOpcodeTable : Prop :=
  opcodeTable.length = 34 ∧
  (∀ (w : Word) (i : Instr), decodeWord w = .ok i → i.row ∈ opcodeTable ∧ i.row.selects w = true) ∧
  (∀ (w : Word) (r : Row), r ∈ opcodeTable → r.selects w = true → ∃ i, decodeWord w = .ok i ∧ i.row = r) ∧
  (∀ (w : Word) (r q : Row), r ∈ opcodeTable → q ∈ opcodeTable → r.selects w = true → q.selects w = true → r = q)

/-- 30_encoding.md section 3 (decision D1): the words that select no instruction are exactly those R50 lists. -/
def Obligations.TheIllegalWordsAreThoseTheSpecLists : Prop :=
  ∀ w : Word, (∃ e, decodeWord w = .error e) ↔ IllegalWord w

/-! ### The step -/

/-- 47_orchestrator.md (orchestrator step) and 40_step.md (engine step; decisions D8, D21): when no breakpoint matches,
no key wait is on and the two bytes at `pc` exist and decode to `i`, the step is: no event yet, the timer phase,
`exec i`, the frame phase. -/
def Obligations.AStepRunsTheDecodedInstruction : Prop :=
  ∀ (s : State) (i : Instr),
    takeBreakpoint s.guest.pc s.orch.bps = none →
    s.guest.halted = false →
    s.guest.pc.toNat ≤ 4094 →
    decodeWord (wordOfBytes (readByte s.guest.mem s.guest.pc.toNat) (readByte s.guest.mem (s.guest.pc.toNat + 1))) =
      .ok i →
    step s =
      match exec i (timerPhase { s with events := [] }) with
      | .next t    => .next (framePhase t)
      | .fault f   => .fault f
      | .refused r => .refused r

/-- 60_exceptions.md R120: a fetched word that selects no instruction raises `InvalidInstruction` with the whole state
unchanged but for the returned outcome, and `0x0000`, what zeroed memory holds, is such a word. -/
def Obligations.AnIllegalWordRaisesInvalidInstruction : Prop :=
  (∀ s : State, s.guest.halted = false → s.guest.pc.toNat ≤ 4094 →
    (∃ e, decodeWord (wordOfBytes (readByte s.guest.mem s.guest.pc.toNat) (readByte s.guest.mem (s.guest.pc.toNat + 1))) =
      .error e) →
    engineStep s = .next { s with outcome := .fault .invalidInstruction }) ∧
  ∃ e, decodeWord 0x0000 = .error e

/-- 20_memory.md section 3 and 60_exceptions.md (FetchOutOfRange; decision D8): with no key wait and `pc` above 4094,
the engine step reads nothing and changes nothing but the outcome it returns; and a `pc` of 4094 or less never gives
that outcome. -/
def Obligations.AFetchAboveTheLastWordChangesNothing : Prop :=
  (∀ s : State, s.guest.halted = false → s.guest.pc.toNat > 4094 →
    engineStep s = .next { s with outcome := .fault .fetchOutOfRange }) ∧
  ∀ s t : State, s.guest.pc.toNat ≤ 4094 → engineStep s = .next t → t.outcome ≠ .fault .fetchOutOfRange

/-- 47_orchestrator.md section 3 (breakpoint check; decision D24): the oldest entry at `pc` stops the step before the
tick, the counters, the halted test and the fetch; a one-shot entry leaves the store, that entry only, a preserved
one stays. -/
def Obligations.ABreakpointStopsTheStepBeforeAnythingElse : Prop :=
  ∀ (s : State) (older newer : List Breakpoint) (e : Breakpoint),
    s.orch.bps = older ++ e :: newer →
    (∀ b ∈ older, b.addr ≠ s.guest.pc) →
    e.addr = s.guest.pc →
    step s =
      .next { s with
        orch    := { s.orch with
          bps := match e.disposition with
            | .clearAfterTrigger => older ++ newer
            | .preserve          => older ++ e :: newer }
        outcome := .breakpointReached
        events  := [] }

/-- 40_step.md R58: while `halted = 1` an engine step returns `HaltedOnKeyPress` and changes nothing else; and no
command but a key-press notification, `reset` or a program load ends the wait. -/
def Obligations.AKeyWaitEndsOnlyByAPressOrAReset : Prop :=
  (∀ s : State, s.guest.halted = true → engineStep s = .next { s with outcome := .haltedOnKeyPress }) ∧
  ∀ (c : Command) (s t : State) (r : Reply),
    s.guest.halted = true →
    (∀ k, c ≠ .setKeyState k true) → c ≠ .reset → (∀ bytes, c ≠ .loadProgram bytes) →
    runCommand c s = .next (t, r) →
    t.guest.halted = true

/-- 47_orchestrator.md (orchestrator step; decision D21): a step that passes the breakpoint check advances both
counters, whatever the engine step returns, and emits `ScreenUpdate` with the framebuffer it leaves exactly when the
frame counter reaches the frame boundary, as its last event. -/
def Obligations.EveryStepPastTheBreakpointCheckAdvancesBothCounters : Prop :=
  ∀ s : State, takeBreakpoint s.guest.pc s.orch.bps = none →
    ∃ t, step s = .next t ∧
      t.orch.timerStepCounter =
        (if s.orch.timerStepCounter + 1 ≥ s.orch.timerDivisor then 0 else s.orch.timerStepCounter + 1) ∧
      t.orch.frameStepCounter =
        (if s.orch.frameStepCounter + 1 ≥ s.orch.stepsPerFrame then 0 else s.orch.frameStepCounter + 1) ∧
      (s.orch.frameStepCounter + 1 ≥ s.orch.stepsPerFrame →
        ∃ earlier, t.events = earlier ++ [.screenUpdate t.guest.fb] ∧ ∀ fb, .screenUpdate fb ∉ earlier) ∧
      (s.orch.frameStepCounter + 1 < s.orch.stepsPerFrame → ∀ fb, .screenUpdate fb ∉ t.events)

/-- 40_step.md ("faults are not exceptions; they are a returned enum value") and 47_orchestrator.md section 7: every
step, in every state, answers a next state, and so does every command inside its argument domain, but for a debug
command that would insert into a full breakpoint store, which is refused. -/
def Obligations.EveryStepCompletesAndOnlyAFullStoreRefuses : Prop :=
  (∀ s : State, ∃ t, step s = .next t) ∧
  ∀ (c : Command) (s : State), c.wf = true →
    (∃ t r, runCommand c s = .next (t, r)) ∨
    (runCommand c s = .refused .breakpointStoreFull ∧ storeFull s.orch.bps = true ∧
      (c = .stepInto ∨ c = .stepOver ∨ c = .stepOut))

/-! ### Invariants -/

/-- The machine's invariant holds at power-on (70_reset_and_hazards.md section 1; the power-on timing is decision D20). -/
def Obligations.TheInvariantHoldsAtReset : Prop := State.reset.Inv

/-- Every step keeps the invariant: memory stays in canonical form with no cell above address 4095, the timing registers
agree, both counters stay in range, the breakpoint store fits (20_memory.md section 3; 10_state.md section 2). -/
def Obligations.EveryStepKeepsTheInvariant : Prop :=
  ∀ s t : State, s.Inv → step s = .next t → t.Inv

/-- Every host command keeps soundness, and every command but `configure_timing`, which may lower a limit below its
counter (47_orchestrator.md, frame boundary), keeps the whole invariant. -/
def Obligations.EveryCommandKeepsTheInvariant : Prop :=
  (∀ (c : Command) (s t : State) (r : Reply), s.Sound → runCommand c s = .next (t, r) → t.Sound) ∧
  ∀ (c : Command) (s t : State) (r : Reply), s.Inv → (∀ ips fps, c ≠ .configureTiming ips fps) →
    runCommand c s = .next (t, r) → t.Inv

/-! ### Rules about every instruction -/

/-- 40_step.md (program counter commit; that `JP V0` adds `V[0]` is decision D6): for every outcome but `Success` and
`HaltedOnKeyPress` the instruction keeps `pc`; for those two it commits `next_pc`, which is `pc + 2` unless the
instruction assigned it (the jumps, `CALL`, `RET` and the skips do); and the early return of a waiting machine
leaves `pc`. -/
def Obligations.PcIsCommittedOnlyBySuccessOrTheKeyWait : Prop :=
  (∀ (i : Instr) (s t : State), exec i s = .next t →
    t.outcome ≠ .success → t.outcome ≠ .haltedOnKeyPress → t.guest.pc = s.guest.pc) ∧
  (∀ (i : Instr) (s t : State), exec i s = .next t →
    t.outcome = .success ∨ t.outcome = .haltedOnKeyPress →
    t.guest.pc =
      match i with
      | .ret        => s.guest.slot s.guest.sp.toInt.toNat
      | .jp a       => a
      | .call a     => a
      | .jpV0 a     => a + zext16 (s.guest.getV 0)
      | .seImm x k  => if s.guest.getV x = k then s.guest.pc + 4 else s.guest.pc + 2
      | .sneImm x k => if s.guest.getV x ≠ k then s.guest.pc + 4 else s.guest.pc + 2
      | .seReg x y  => if s.guest.getV x = s.guest.getV y then s.guest.pc + 4 else s.guest.pc + 2
      | .sneReg x y => if s.guest.getV x ≠ s.guest.getV y then s.guest.pc + 4 else s.guest.pc + 2
      | .skp x      => if s.guest.key[(s.guest.getV x).toNat % 16]'(Nat.mod_lt _ (by decide)) = true
                       then s.guest.pc + 4 else s.guest.pc + 2
      | .sknp x     => if s.guest.key[(s.guest.getV x).toNat % 16]'(Nat.mod_lt _ (by decide)) = false
                       then s.guest.pc + 4 else s.guest.pc + 2
      | _           => s.guest.pc + 2) ∧
  ∀ s t : State, s.guest.halted = true → engineStep s = .next t → t.guest.pc = s.guest.pc

/-- 40_step.md (what `raise` does) and 60_exceptions.md section 4: an instruction that faults leaves the whole Guest
State and Orchestrator state unchanged, but for `DRW`, which may have drawn rows and written `VF`. -/
def Obligations.OnlyAFaultingDrawChangesTheState : Prop :=
  ∀ (i : Instr) (s t : State) (f : Fault), exec i s = .next t → t.outcome = .fault f →
    t = { s with outcome := .fault f } ∨
    ∃ x y n, i = .drw x y n ∧ f = .invalidSpriteLocation ∧
      t = { s with guest := { s.guest with fb := t.guest.fb, V := t.guest.V }, outcome := .fault f } ∧
      ∀ r, r ≠ 15 → t.guest.getV r = s.guest.getV r

/-- 10_state.md section 1 (decisions D5, D7), 20_memory.md section 1 and 40_step.md: each piece of Guest State is
written only by the instructions the spec names for it, whatever the outcome; no instruction writes the keypad; a
general register is written only by a form that names it as a destination, loads it in bulk, or writes it as the
flag; an instruction that assigns no next `pc` advances it by 2 or, at a fault, leaves it. That only `RND` moves the
oracle's counter `randUsed`, a field of the model's own, is assumption log 3. -/
def Obligations.EachPieceOfStateHasOnlyItsNamedWriters : Prop :=
  ∀ (i : Instr) (s t : State), exec i s = .next t →
    ((∀ a, i ≠ .ldI a) → (∀ x, i ≠ .addI x) → (∀ x, i ≠ .ldF x) → t.guest.I = s.guest.I) ∧
    (i ≠ .ret → (∀ a, i ≠ .call a) → t.guest.sp = s.guest.sp) ∧
    ((∀ a, i ≠ .call a) → t.guest.stack = s.guest.stack) ∧
    ((∀ x, i ≠ .ldDTVx x) → t.guest.DT = s.guest.DT) ∧
    ((∀ x, i ≠ .ldSTVx x) → t.guest.ST = s.guest.ST) ∧
    ((∀ x, i ≠ .ldB x) → (∀ x, i ≠ .storeRegs x) →
      ∀ a, readByte t.guest.mem a = readByte s.guest.mem a) ∧
    (i ≠ .cls → (∀ x y n, i ≠ .drw x y n) → t.guest.fb = s.guest.fb) ∧
    ((∀ x, i ≠ .ldVxK x) → t.guest.halted = s.guest.halted ∧ t.guest.kpr = s.guest.kpr) ∧
    t.guest.key = s.guest.key ∧
    (∀ r, ¬ i.MayWriteV r → t.guest.getV r = s.guest.getV r) ∧
    (¬ i.AssignsNextPc → t.guest.pc = s.guest.pc + 2 ∨ t.guest.pc = s.guest.pc) ∧
    ((∀ x k, i ≠ .rnd x k) → t.randUsed = s.randUsed)

/-- 60_exceptions.md section 4 (privilege) and 10_state.md sections 1 and 2: no instruction changes the Orchestrator
state or the keypad, emits an event, or depends on the Orchestrator state: replacing that state before an
instruction replaces it after, and changes nothing else. -/
def Obligations.TheGuestCannotReachTheOrchestrator : Prop :=
  ∀ (i : Instr) (s t : State), exec i s = .next t →
    t.orch = s.orch ∧ t.guest.key = s.guest.key ∧ t.events = s.events ∧
    ∀ (o : Orchestrator) (es : List Event),
      exec i { s with orch := o, events := es } = .next { t with orch := o, events := es }

/-- 10_state.md section 1 (flag register; decision D5): `VF` is written as a side effect only by the six instructions
listed, and then with 0 or 1; any other instruction changes it only as its explicit destination. -/
def Obligations.OnlySixInstructionsWriteTheFlagAsASideEffect : Prop :=
  ∀ (i : Instr) (s t : State), exec i s = .next t →
    match i with
    | .addReg x _ | .subReg x _ | .subnReg x _ | .shr x | .shl x =>
      x ≠ 15 → t.guest.getV 15 = 0 ∨ t.guest.getV 15 = 1
    | .drw _ _ _ => t.guest.getV 15 = 0 ∨ t.guest.getV 15 = 1
    | .ldImm x _ | .addImm x _ | .ldReg x _ | .orReg x _ | .andReg x _ | .xorReg x _ | .rnd x _ | .ldVxDT x
    | .loadRegs x => x ≠ 15 → t.guest.getV 15 = s.guest.getV 15
    | _ => t.guest.getV 15 = s.guest.getV 15

/-! ### Control transfer -/

/-- 41_control_transfer.md R60 and R62. `RET` with `sp = -1` raises `StackUnderflow` and writes nothing; otherwise it
takes the whole slot to `pc`, lowers `sp` and leaves every slot. `CALL` with `sp = 15` raises `StackOverflow` and
writes nothing; otherwise it raises `sp`, puts `pc + 2` into the new top slot, leaves the other slots and goes to
its target. -/
def Obligations.CallPushesAndReturnPops : Prop :=
  ∀ s : State,
    (s.guest.sp.toInt = -1 → exec .ret s = .next { s with outcome := .fault .stackUnderflow }) ∧
    (0 ≤ s.guest.sp.toInt → ∃ sp, sp.toInt = s.guest.sp.toInt - 1 ∧
      exec .ret s =
        .next { s with guest := { s.guest with sp := sp, pc := s.guest.slot s.guest.sp.toInt.toNat }, outcome := .success }) ∧
    (∀ a : Word, s.guest.sp.toInt = 15 → exec (.call a) s = .next { s with outcome := .fault .stackOverflow }) ∧
    ∀ a : Word, s.guest.sp.toInt < 15 → ∃ t, exec (.call a) s = .next t ∧
      t = { s with
        guest   := { s.guest with sp := t.guest.sp, stack := t.guest.stack, pc := a }
        outcome := .success } ∧
      t.guest.sp.toInt = s.guest.sp.toInt + 1 ∧
      t.guest.slot (s.guest.sp.toInt + 1).toNat = s.guest.pc + 2 ∧
      ∀ k, k ≠ (s.guest.sp.toInt + 1).toNat → t.guest.slot k = s.guest.slot k

/-- 41_control_transfer.md section head and R60, R62 together: a `RET` reached with the stack that a `CALL` left comes
back to the instruction after the `CALL`, with the stack pointer the `CALL` found. -/
def Obligations.AReturnComesBackBehindItsCall : Prop :=
  ∀ (a : Word) (s t u : State), exec (.call a) s = .next t → t.outcome = .success →
    u.guest.sp = t.guest.sp → u.guest.stack = t.guest.stack →
    ∃ v, exec .ret u = .next v ∧ v.outcome = .success ∧ v.guest.pc = s.guest.pc + 2 ∧ v.guest.sp = s.guest.sp

/-- 41_control_transfer.md R61: `JP addr` goes to its address, whatever the address is, and changes nothing else. -/
def Obligations.JumpGoesToItsAddress : Prop :=
  ∀ (a : Word) (s : State), exec (.jp a) s = .next { s with guest := { s.guest with pc := a }, outcome := .success }

/-- 41_control_transfer.md (`JP V0`; the register is decision D6, marked as general knowledge): for an address the
encoding admits, the target is the sum of address and `V[0]` as natural numbers, reduced neither modulo 4096 nor
modulo 2^16. -/
def Obligations.JumpWithOffsetAddsRegisterZero : Prop :=
  ∀ (a : Word) (s : State), a.toNat ≤ 4095 → ∃ t, exec (.jpV0 a) s = .next t ∧
    t = { s with guest := { s.guest with pc := t.guest.pc }, outcome := .success } ∧
    t.guest.pc.toNat = a.toNat + (s.guest.getV 0).toNat

/-- 41_control_transfer.md R63 to R66: each skip goes to `pc + 4` where its condition holds and to `pc + 2` where not,
and changes nothing else; comparing a register with itself always skips under `SE` and never under `SNE`. -/
def Obligations.SkipsCompareAndAdvance : Prop :=
  ∀ (x y : Reg) (k : Byte) (s : State),
    let at4 : State := { s with guest := { s.guest with pc := s.guest.pc + 4 }, outcome := .success }
    let at2 : State := { s with guest := { s.guest with pc := s.guest.pc + 2 }, outcome := .success }
    exec (.seImm x k) s = .next (if (s.guest.getV x).toNat = k.toNat then at4 else at2) ∧
    exec (.sneImm x k) s = .next (if (s.guest.getV x).toNat = k.toNat then at2 else at4) ∧
    exec (.seReg x y) s = .next (if (s.guest.getV x).toNat = (s.guest.getV y).toNat then at4 else at2) ∧
    exec (.sneReg x y) s = .next (if (s.guest.getV x).toNat = (s.guest.getV y).toNat then at2 else at4) ∧
    exec (.seReg x x) s = .next at4 ∧
    exec (.sneReg x x) s = .next at2

/-- 45_keypad_timers.md R91 and R92: a register value above 15 raises `InvalidKey` and changes nothing; otherwise `SKP`
skips when that key is pressed and `SKNP` when it is not, and nothing else changes. -/
def Obligations.KeySkipsTestTheKeyTheyName : Prop :=
  ∀ (x : Reg) (s : State),
    ((s.guest.getV x).toNat > 15 →
      exec (.skp x) s = .next { s with outcome := .fault .invalidKey } ∧
      exec (.sknp x) s = .next { s with outcome := .fault .invalidKey }) ∧
    ∀ h : (s.guest.getV x).toNat < 16,
      exec (.skp x) s =
        .next { s with
          guest   := { s.guest with pc := s.guest.pc + (if s.guest.key[(s.guest.getV x).toNat] = true then 4 else 2) }
          outcome := .success } ∧
      exec (.sknp x) s =
        .next { s with
          guest   := { s.guest with pc := s.guest.pc + (if s.guest.key[(s.guest.getV x).toNat] = true then 2 else 4) }
          outcome := .success }

/-! ### Loads, arithmetic, logic, random -/

/-- 42_load_alu.md R69 and R71: `V[x]` takes the immediate, or the value of `V[y]`; no other register and nothing else
changes. -/
def Obligations.LoadsOfARegisterWriteOnlyIt : Prop :=
  ∀ (x y : Reg) (k : Byte) (s : State),
    (∃ t, exec (.ldImm x k) s = .next t ∧ ChangesOnlyV s t (s.guest.pc + 2) (· = x) ∧ t.guest.getV x = k) ∧
    ∃ t, exec (.ldReg x y) s = .next t ∧ ChangesOnlyV s t (s.guest.pc + 2) (· = x) ∧
      t.guest.getV x = s.guest.getV y

/-- 42_load_alu.md (`ADD Vx, byte`, `OR`, `AND`, `XOR`; that `VF` is not written is decision D5): the result is the sum
modulo 256, or the bitwise operation of the two registers; no other register, `VF` among them, and nothing else
changes. -/
def Obligations.AddImmediateAndLogicWriteNoFlag : Prop :=
  ∀ (x y : Reg) (k : Byte) (s : State),
    (∃ t, exec (.addImm x k) s = .next t ∧ ChangesOnlyV s t (s.guest.pc + 2) (· = x) ∧
      (t.guest.getV x).toNat = ((s.guest.getV x).toNat + k.toNat) % 256) ∧
    (∃ t, exec (.orReg x y) s = .next t ∧ ChangesOnlyV s t (s.guest.pc + 2) (· = x) ∧
      ∀ j, (t.guest.getV x).getLsbD j = ((s.guest.getV x).getLsbD j || (s.guest.getV y).getLsbD j)) ∧
    (∃ t, exec (.andReg x y) s = .next t ∧ ChangesOnlyV s t (s.guest.pc + 2) (· = x) ∧
      ∀ j, (t.guest.getV x).getLsbD j = ((s.guest.getV x).getLsbD j && (s.guest.getV y).getLsbD j)) ∧
    ∃ t, exec (.xorReg x y) s = .next t ∧ ChangesOnlyV s t (s.guest.pc + 2) (· = x) ∧
      ∀ j, (t.guest.getV x).getLsbD j = ((s.guest.getV x).getLsbD j ^^ (s.guest.getV y).getLsbD j)

/-- 42_load_alu.md (`ADD Vx, Vy`; sampling and write order are decision D4): it sets `VF` to 1 exactly when the unmasked
sum exceeds 255 and stores the sum modulo 256 in `V[x]`; with `x = 15` the sum overwrites the carry; operands are
the values before the instruction, also when `y = 15`. -/
def Obligations.AddSetsTheCarryAndStoresTheSum : Prop :=
  ∀ (x y : Reg) (s : State),
    ∃ t, exec (.addReg x y) s = .next t ∧ ChangesOnlyV s t (s.guest.pc + 2) (fun r => r = x ∨ r = 15) ∧
      (t.guest.getV x).toNat = ((s.guest.getV x).toNat + (s.guest.getV y).toNat) % 256 ∧
      (x ≠ 15 → t.guest.getV 15 = if (s.guest.getV x).toNat + (s.guest.getV y).toNat > 255 then 1 else 0)

/-- 42_load_alu.md (`SUB`, `SUBN`; write order is decision D4; equality is 90_conflicts.md C3): `SUB` stores `V[x] -
V[y]` and `SUBN` stores `V[y] - V[x]`, modulo 256, in `V[x]`, and `VF` becomes 1 exactly when the minuend is
strictly greater than the subtrahend; with `x = 15` the difference overwrites the flag. -/
def Obligations.SubtractionsSetTheFlagWhenTheMinuendIsGreater : Prop :=
  ∀ (x y : Reg) (s : State),
    (∃ t, exec (.subReg x y) s = .next t ∧ ChangesOnlyV s t (s.guest.pc + 2) (fun r => r = x ∨ r = 15) ∧
      ((t.guest.getV x).toNat : Int) = ((s.guest.getV x).toNat - (s.guest.getV y).toNat : Int) % 256 ∧
      (x ≠ 15 → t.guest.getV 15 = if (s.guest.getV x).toNat > (s.guest.getV y).toNat then 1 else 0)) ∧
    ∃ t, exec (.subnReg x y) s = .next t ∧ ChangesOnlyV s t (s.guest.pc + 2) (fun r => r = x ∨ r = 15) ∧
      ((t.guest.getV x).toNat : Int) = ((s.guest.getV y).toNat - (s.guest.getV x).toNat : Int) % 256 ∧
      (x ≠ 15 → t.guest.getV 15 = if (s.guest.getV y).toNat > (s.guest.getV x).toNat then 1 else 0)

/-- 42_load_alu.md (`SHR`, `SHL`; that `V[x]` is shifted in place is decision D3): the result is half, or twice modulo
256, the old `V[x]`, and `VF` the bit shifted out, unless `x = 15`. -/
def Obligations.ShiftsMoveOneBitIntoTheFlag : Prop :=
  ∀ (x : Reg) (s : State),
    (∃ t, exec (.shr x) s = .next t ∧ ChangesOnlyV s t (s.guest.pc + 2) (fun r => r = x ∨ r = 15) ∧
      (t.guest.getV x).toNat = (s.guest.getV x).toNat / 2 ∧
      (x ≠ 15 → (t.guest.getV 15).toNat = (s.guest.getV x).toNat % 2)) ∧
    ∃ t, exec (.shl x) s = .next t ∧ ChangesOnlyV s t (s.guest.pc + 2) (fun r => r = x ∨ r = 15) ∧
      (t.guest.getV x).toNat = (s.guest.getV x).toNat * 2 % 256 ∧
      (x ≠ 15 → (t.guest.getV 15).toNat = (s.guest.getV x).toNat / 128)

/-- 42_load_alu.md (`RND`; decision D16; the oracle's form is assumption log 3): the result is the oracle's next byte,
whatever it is, under the mask: no bit outside the mask is set and a mask of 0 gives 0; one byte is drawn and
nothing else changes. -/
def Obligations.RandomStaysUnderItsMask : Prop :=
  ∀ (x : Reg) (k : Byte) (s : State),
    ∃ t, exec (.rnd x k) s = .next t ∧
      t = { s with
        guest    := { s.guest with V := t.guest.V, pc := s.guest.pc + 2 }
        outcome  := .success
        randUsed := s.randUsed + 1 } ∧
      (∀ r, r ≠ x → t.guest.getV r = s.guest.getV r) ∧
      t.guest.getV x = Config.randByte s.randUsed &&& k ∧
      (∀ j, k.getLsbD j = false → (t.guest.getV x).getLsbD j = false) ∧
      (k = 0 → t.guest.getV x = 0)

/-! ### The index register and memory -/

/-- 43_index_memory.md R82: `LD I, addr` writes its address to `I` and nothing else. -/
def Obligations.LoadIndexWritesItsAddress : Prop :=
  ∀ (a : Word) (s : State),
    exec (.ldI a) s = .next { s with guest := { s.guest with I := a, pc := s.guest.pc + 2 }, outcome := .success }

/-- 43_index_memory.md (`ADD I, Vx`, `LD F, Vx`; decisions D5, D7, D13): `I` takes the sum modulo 2^16, or five times
the whole of `V[x]`; no flag, no memory and nothing else changes. -/
def Obligations.IndexArithmeticWritesOnlyTheIndex : Prop :=
  ∀ (x : Reg) (s : State),
    (∃ t, exec (.addI x) s = .next t ∧
      t = { s with guest := { s.guest with I := t.guest.I, pc := s.guest.pc + 2 }, outcome := .success } ∧
      t.guest.I.toNat = (s.guest.I.toNat + (s.guest.getV x).toNat) % 65536) ∧
    ∃ t, exec (.ldF x) s = .next t ∧
      t = { s with guest := { s.guest with I := t.guest.I, pc := s.guest.pc + 2 }, outcome := .success } ∧
      t.guest.I.toNat = (s.guest.getV x).toNat * 5

/-- 43_index_memory.md (`LD B, Vx`; decision D12): with `I + 2` above 4095 the fault is `InvalidMemoryLocation` and
nothing is stored; otherwise the hundreds, tens and ones of `V[x]` are stored at `I`, `I + 1`, `I + 2`: three
decimal digits that make up the register's value; every byte outside the three reads as before, and nothing else
changes. -/
def Obligations.BcdStoresTheThreeDecimalDigits : Prop :=
  ∀ (x : Reg) (s : State),
    (s.guest.effectiveAddress 2 > 4095 →
      exec (.ldB x) s = .next { s with outcome := .fault .invalidMemoryLocation }) ∧
    (s.guest.effectiveAddress 2 ≤ 4095 → ∃ t, exec (.ldB x) s = .next t ∧
      ChangesOnlyBytes s t (s.guest.effectiveAddress 0) 3 ∧
      (readByte t.guest.mem (s.guest.effectiveAddress 0)).toNat * 100 +
        (readByte t.guest.mem (s.guest.effectiveAddress 1)).toNat * 10 +
        (readByte t.guest.mem (s.guest.effectiveAddress 2)).toNat = (s.guest.getV x).toNat ∧
      (readByte t.guest.mem (s.guest.effectiveAddress 0)).toNat ≤ 2 ∧
      (readByte t.guest.mem (s.guest.effectiveAddress 1)).toNat ≤ 9 ∧
      (readByte t.guest.mem (s.guest.effectiveAddress 2)).toNat ≤ 9)

/-- 43_index_memory.md (`LD [I], Vx`; decision D11): with `I + x` above 4095 the fault is `InvalidMemoryLocation` and
nothing is stored; otherwise `V[0]` to `V[x]` are stored at `I` to `I + x`, every byte outside them reads as before,
and nothing else, `I` among it, changes. -/
def Obligations.BulkStoreWritesRegistersZeroToX : Prop :=
  ∀ (x : Reg) (s : State),
    (s.guest.effectiveAddress x.val > 4095 →
      exec (.storeRegs x) s = .next { s with outcome := .fault .invalidMemoryLocation }) ∧
    (s.guest.effectiveAddress x.val ≤ 4095 → ∃ t, exec (.storeRegs x) s = .next t ∧
      ChangesOnlyBytes s t (s.guest.effectiveAddress 0) (x.val + 1) ∧
      ∀ r : Reg, r ≤ x → readByte t.guest.mem (s.guest.effectiveAddress r.val) = s.guest.getV r)

/-- 43_index_memory.md (`LD Vx, [I]`; decision D11): with `I + x` above 4095 the fault is `InvalidMemoryLocation` and no
register changes; otherwise `V[0]` to `V[x]` take the bytes at `I` to `I + x`, and the registers above `x` and all
else stay. -/
def Obligations.BulkLoadReadsRegistersZeroToX : Prop :=
  ∀ (x : Reg) (s : State),
    (s.guest.effectiveAddress x.val > 4095 →
      exec (.loadRegs x) s = .next { s with outcome := .fault .invalidMemoryLocation }) ∧
    (s.guest.effectiveAddress x.val ≤ 4095 → ∃ t, exec (.loadRegs x) s = .next t ∧
      ChangesOnlyV s t (s.guest.pc + 2) (· ≤ x) ∧
      ∀ r : Reg, r ≤ x → t.guest.getV r = readByte s.guest.mem (s.guest.effectiveAddress r.val))

/-- 43_index_memory.md (the bulk copies; decision D11) and 20_memory.md section 4: a bulk load through the same `I`, run
in any state with the memory a bulk store left, restores the registers the store stored. -/
def Obligations.ABulkLoadRestoresWhatABulkStoreStored : Prop :=
  ∀ (x : Reg) (s t u : State), exec (.storeRegs x) s = .next t → t.outcome = .success →
    u.guest.mem = t.guest.mem → u.guest.I = s.guest.I →
    ∃ v, exec (.loadRegs x) u = .next v ∧ v.outcome = .success ∧ ∀ r : Reg, r ≤ x → v.guest.getV r = s.guest.getV r

/-- 20_memory.md section 4 (a store is visible to every later fetch): after a bulk store of at least two registers, a
fetch from the first stored address reads the word made of `V[0]` and `V[1]`, and the next engine step there runs
that word. -/
def Obligations.AStoreIsSeenByTheNextFetch : Prop :=
  ∀ (x : Reg) (s t : State), 1 ≤ x.val → exec (.storeRegs x) s = .next t → t.outcome = .success →
    t.guest.pc = s.guest.I → t.guest.halted = false →
    t.guest.fetch = wordOfBytes (s.guest.getV 0) (s.guest.getV 1) ∧
    ∀ i, decodeWord (wordOfBytes (s.guest.getV 0) (s.guest.getV 1)) = .ok i → engineStep t = exec i t

/-! ### Display -/

/-- 44_display.md R89: `CLS` turns every cell off and changes nothing else, `VF` among it. -/
def Obligations.ClearScreenTurnsEveryCellOff : Prop :=
  ∀ s : State, ∃ t, exec .cls s = .next t ∧
    t = { s with guest := { s.guest with fb := t.guest.fb, pc := s.guest.pc + 2 }, outcome := .success } ∧
    ∀ px py, t.guest.fb.pixel px py = false

/-- 44_display.md (`DRW`; bit order and the moment `VF` is written are decision D14): when every row lies in memory, or
there is none, the draw completes: each cell is exclusive-ored with the sprite, coordinates wrapping, `VF` says
whether a pixel went off, and `I`, memory and everything else stay. -/
def Obligations.DrawExclusiveOrsTheSpriteAndReportsCollisions : Prop :=
  ∀ (x y : Reg) (n : Nat) (s : State), n ≤ 15 → n = 0 ∨ s.guest.I.toNat + n ≤ 4096 →
    ∃ t, exec (.drw x y n) s = .next t ∧
      t = { s with
        guest   := { s.guest with V := t.guest.V, fb := t.guest.fb, pc := s.guest.pc + 2 }
        outcome := .success } ∧
      (∀ r, r ≠ 15 → t.guest.getV r = s.guest.getV r) ∧
      Drawn s t (s.guest.getV x) (s.guest.getV y) n

/-- 44_display.md (`DRW`, corner case (a); decision D14): when some row lies above address 4095, the rows below it are
drawn and stay drawn, `VF` reports their collisions, the fault is `InvalidSpriteLocation`, and `pc` and everything
else stay. -/
def Obligations.AFaultingDrawKeepsTheRowsItDrew : Prop :=
  ∀ (x y : Reg) (n : Nat) (s : State), n ≤ 15 → n ≠ 0 → s.guest.I.toNat + n > 4096 →
    ∃ t, exec (.drw x y n) s = .next t ∧
      t = { s with
        guest   := { s.guest with V := t.guest.V, fb := t.guest.fb }
        outcome := .fault .invalidSpriteLocation } ∧
      (∀ r, r ≠ 15 → t.guest.getV r = s.guest.getV r) ∧
      Drawn s t (s.guest.getV x) (s.guest.getV y) (4096 - s.guest.I.toNat)

/-- 44_display.md (`DRW`; decision D14): drawing the same sprite again at the same place restores the framebuffer, as
corner case (f) says. That `VF` then becomes 1 exactly when the first draw turned a pixel on is the model's choice
(assumption log 9, DEDUCED from the rule's pseudocode): corner case (f) says instead that it becomes 1 if the sprite
has any 1 bit. -/
def Obligations.DrawingTwiceRestoresTheFramebuffer : Prop :=
  ∀ (x y : Reg) (n : Nat) (s t : State), n ≤ 15 → x ≠ 15 → y ≠ 15 →
    exec (.drw x y n) s = .next t → t.outcome = .success →
    ∃ u, exec (.drw x y n) t = .next u ∧ u.outcome = .success ∧ u.guest.fb = s.guest.fb ∧
      (u.guest.getV 15 = 1 ↔
        ∃ px py, px < 64 ∧ py < 32 ∧ s.guest.fb.pixel px py = false ∧ t.guest.fb.pixel px py = true)

/-! ### Keypad and timers -/

/-- 45_keypad_timers.md R93, R95 and R96: the timer is copied to `V[x]`, or `V[x]` to the timer; nothing else changes,
and no event is emitted. After `LD ST, Vx` the next tick clears the tone flag if 0 was written, emits nothing if a
tone is being emitted, and requests a tone if a nonzero value was written and none is. No instruction reads `ST`:
another value of it before any other instruction is there after it, and changes nothing else. -/
def Obligations.TimerMovesCopyOneByte : Prop :=
  ∀ (x : Reg) (s : State),
    (∃ t, exec (.ldVxDT x) s = .next t ∧ ChangesOnlyV s t (s.guest.pc + 2) (· = x) ∧ t.guest.getV x = s.guest.DT) ∧
    exec (.ldDTVx x) s =
      .next { s with guest := { s.guest with DT := s.guest.getV x, pc := s.guest.pc + 2 }, outcome := .success } ∧
    (∃ t, exec (.ldSTVx x) s = .next t ∧
      t = { s with guest := { s.guest with ST := s.guest.getV x, pc := s.guest.pc + 2 }, outcome := .success } ∧
      (s.guest.getV x = 0 → (tick t).orch.emittingTone = false) ∧
      (s.orch.emittingTone = true → (tick t).events = s.events) ∧
      (s.guest.getV x ≠ 0 → s.orch.emittingTone = false → ∃ d, (tick t).events = s.events ++ [.toneRequest d])) ∧
    ∀ (i : Instr) (t : State) (v : Byte), (∀ y, i ≠ .ldSTVx y) → exec i s = .next t →
      exec i { s with guest := { s.guest with ST := v } } = .next { t with guest := { t.guest with ST := v } }

/-- 45_keypad_timers.md (`LD Vx, K`; decisions D17, D18) with 47_orchestrator.md section 7: the instruction starts the
wait, past itself, without looking at the keypad or writing `V[x]`; a press that finds the machine waiting writes
the key's number to the register that `kpr` names, ends the wait, and changes no other register. Any other
notification, a release or a press that finds no wait, updates its key and changes nothing else. -/
def Obligations.AKeyWaitReceivesTheNextPress : Prop :=
  ∀ (x : Reg) (s : State),
    exec (.ldVxK x) s =
      .next { s with
        guest   := { s.guest with halted := true, kpr := x, pc := s.guest.pc + 2 }
        outcome := .haltedOnKeyPress } ∧
    (∀ k : Nat, k ≤ 15 → s.guest.halted = true →
      ∃ t, runCommand (.setKeyState k true) s = .next (t, .done) ∧
        t = { s with guest := { s.guest with V := t.guest.V, key := t.guest.key, halted := false } } ∧
        (t.guest.getV s.guest.kpr).toNat = k ∧
        (∀ r, r ≠ s.guest.kpr → t.guest.getV r = s.guest.getV r) ∧
        ∀ j : Fin 16, t.guest.key[j] = if j.val = k then true else s.guest.key[j]) ∧
    ∀ (k : Nat) (pressed : Bool), k ≤ 15 → pressed = false ∨ s.guest.halted = false →
      ∃ t, runCommand (.setKeyState k pressed) s = .next (t, .done) ∧
        t = { s with guest := { s.guest with key := t.guest.key } } ∧
        ∀ j : Fin 16, t.guest.key[j] = if j.val = k then pressed else s.guest.key[j]

/-! ### The orchestrator -/

/-- 47_orchestrator.md section 5 (the tick; the tone check and its duration are decision D23): a tick lowers each timer
that is nonzero by one; it sets the tone flag and requests the tone, with the `ST` it found, when `ST` was nonzero
and no tone was being emitted; it clears the flag when `ST` is then 0; nothing else changes. -/
def Obligations.TheTickCountsDownAndStartsTones : Prop :=
  ∀ s : State,
    tick s =
      { s with
        guest  := { s.guest with DT := (tick s).guest.DT, ST := (tick s).guest.ST }
        orch   := { s.orch with emittingTone := (tick s).orch.emittingTone }
        events := (tick s).events } ∧
    (tick s).guest.DT.toNat = s.guest.DT.toNat - 1 ∧
    (tick s).guest.ST.toNat = s.guest.ST.toNat - 1 ∧
    ((tick s).orch.emittingTone = true ↔ s.guest.ST.toNat ≥ 2) ∧
    (tick s).events =
      s.events ++
        (if s.guest.ST.toNat > 0 ∧ s.orch.emittingTone = false
         then [.toneRequest ((s.guest.ST.toNat : Rat) * 1000 / 60)] else [])

/-- 47_orchestrator.md section 5 (decision D23): over a step, a tone request appears only when the timer phase ticked,
found `ST` nonzero and found no tone being emitted; it is then the step's first event and carries the `ST` found; no
other appears. The tone flag, which holds back the next request, is after a step that ticked set exactly when `ST`
was left nonzero, and after any other step what it was: so a tone is requested once until a tick leaves `ST` at
zero. -/
def Obligations.AToneIsRequestedOnceUntilItEnds : Prop :=
  ∀ s t : State, step s = .next t →
    (∃ later, t.events =
        (if takeBreakpoint s.guest.pc s.orch.bps = none ∧ s.orch.timerStepCounter + 1 ≥ s.orch.timerDivisor ∧
            s.guest.ST.toNat > 0 ∧ s.orch.emittingTone = false
         then [.toneRequest ((s.guest.ST.toNat : Rat) * 1000 / 60)] else []) ++ later ∧
      ∀ d, .toneRequest d ∉ later) ∧
    t.orch.emittingTone =
      if takeBreakpoint s.guest.pc s.orch.bps = none ∧ s.orch.timerStepCounter + 1 ≥ s.orch.timerDivisor
      then decide (s.guest.ST.toNat - 1 > 0) else s.orch.emittingTone

/-- 47_orchestrator.md section 2 (`configure_timing`, the cadence divisor; decisions D22, D32): it rejects a
non-positive argument or fewer than one step a frame and then changes nothing; otherwise it writes the five timing
registers and nothing else, the steps a frame being the floor of `ips / fps`, and the divisor the integer nearest to
`ips / 60`, at least 1. -/
def Obligations.ConfigureTimingDerivesOrRejects : Prop :=
  ∀ (ips : Int) (fps : Rat) (s : State),
    ((ips ≤ 0 ∨ fps ≤ 0 ∨ (ips : Rat) < fps) → runCommand (.configureTiming ips fps) s = .next (s, .rejected)) ∧
    (0 < ips → 0 < fps → fps ≤ (ips : Rat) → ∃ t, runCommand (.configureTiming ips fps) s = .next (t, .accepted) ∧
      t = { s with
        orch := { s.orch with
          ips := t.orch.ips, fps := t.orch.fps, stepsPerFrame := t.orch.stepsPerFrame,
          timerDivisor := t.orch.timerDivisor, maxFrameTimeMs := t.orch.maxFrameTimeMs } } ∧
      (t.orch.ips : Int) = ips ∧ t.orch.fps = fps ∧
      (t.orch.stepsPerFrame : Rat) * fps ≤ ips ∧ (ips : Rat) < ((t.orch.stepsPerFrame : Rat) + 1) * fps ∧
      t.orch.maxFrameTimeMs * fps = 1000 ∧
      (ips < 30 → t.orch.timerDivisor = 1) ∧
      (30 ≤ ips → 60 * (t.orch.timerDivisor : Int) - 30 ≤ ips ∧ ips < 60 * (t.orch.timerDivisor : Int) + 30))

/-- 70_reset_and_hazards.md section 1 and 90_conflicts.md C10 (that the font is written again is the spec's inference):
after `reset` the Guest State does not depend on what it held, a second `reset` changes nothing, and the font stands
in memory again, with zeros above it. -/
def Obligations.ResetIsTotalAndIdempotent : Prop :=
  ∀ s u : State, ∃ t v,
    runCommand .reset s = .next (t, .done) ∧ runCommand .reset u = .next (v, .done) ∧ t.guest = v.guest ∧
    runCommand .reset t = .next (t, .done) ∧
    (∀ a, a < 80 → readByte t.guest.mem a = fontTable.getD a 0) ∧
    ∀ a, 80 ≤ a → readByte t.guest.mem a = 0

/-- 10_state.md section 3 (Table R22; `I`, the slots and `kpr` are decision D19; the font table is a parameter,
assumption log 2): what `reset` leaves, piece by piece, memory among it, and what it keeps: timing and breakpoints. -/
def Obligations.ResetLeavesTheTableOfResetValues : Prop :=
  ∀ s : State, ∃ t, runCommand .reset s = .next (t, .done) ∧
    (∀ r, t.guest.getV r = 0) ∧ t.guest.I = 0 ∧ t.guest.pc = 0x200 ∧ t.guest.sp.toInt = -1 ∧
    (∀ k, t.guest.slot k = 0) ∧ t.guest.DT = 0 ∧ t.guest.ST = 0 ∧
    (∀ a, a < 80 → readByte t.guest.mem a = fontTable.getD a 0) ∧ (∀ a, 80 ≤ a → readByte t.guest.mem a = 0) ∧
    (∀ px py, t.guest.fb.pixel px py = false) ∧ (∀ k : Fin 16, t.guest.key[k] = false) ∧
    t.guest.halted = false ∧ t.guest.kpr = 0 ∧
    t.orch = { s.orch with frameStepCounter := 0, timerStepCounter := 0, emittingTone := false }

/-- 47_orchestrator.md section 4 (`load_program`; decision D29): an image longer than 3584 bytes is rejected and changes
nothing; any other is copied to the program origin after a reset, the memory around it holds its reset contents, and
everything else is as `reset` leaves it. -/
def Obligations.LoadProgramResetsAndCopies : Prop :=
  ∀ (bytes : List Byte) (s : State),
    (bytes.length > 3584 → runCommand (.loadProgram bytes) s = .next (s, .rejected)) ∧
    (bytes.length ≤ 3584 → ∃ t u, runCommand (.loadProgram bytes) s = .next (t, .accepted) ∧
      runCommand .reset s = .next (u, .done) ∧
      t = { u with guest := { u.guest with mem := t.guest.mem } } ∧
      (∀ i, i < bytes.length → readByte t.guest.mem (0x200 + i) = bytes.getD i 0) ∧
      ∀ a, a < 0x200 ∨ 0x200 + bytes.length ≤ a → readByte t.guest.mem a = readByte u.guest.mem a)

/-- 47_orchestrator.md section 4 (`run_for_one_frame`; decision D36): it runs orchestrator steps up to
`steps_per_frame`, stopping at the first outcome that is not `Success`, which it returns; the events of its steps
are collected. -/
def Obligations.OneFrameStopsAtTheFirstOtherOutcome : Prop :=
  ∀ s : State, ∃ t, runCommand .runForOneFrame s = .next (t, .outcome t.outcome) ∧
    ((t.outcome = .success ∧ ∃ u, SuccessfulSteps s.orch.stepsPerFrame { s with events := [] } u ∧
        t = { u with outcome := .success }) ∨
     (t.outcome ≠ .success ∧ ∃ k u, k < s.orch.stepsPerFrame ∧
        SuccessfulSteps k { s with events := [] } u ∧ orchStep u = .next t))

/-- 47_orchestrator.md section 6 (`step_into`; decisions D24, D25): when the words at `pc`, `pc + 2`, … below `a` are no
calls and the word at `a`, at most 4094, is one, a one-shot breakpoint at its target becomes the newest entry (with
a full store the command is refused); when no word up to 4094 is a call the answer is `NoSubroutine` and nothing
changes. -/
def Obligations.StepIntoFindsTheNextCall : Prop :=
  ∀ s : State,
    (∀ j : Nat, s.guest.pc.toNat + 2 * j ≤ 4094 →
      (∀ m, m < j → (readWord s.guest.mem (s.guest.pc.toNat + 2 * m)).toNat / 4096 ≠ 2) →
      (readWord s.guest.mem (s.guest.pc.toNat + 2 * j)).toNat / 4096 = 2 →
      runCommand .stepInto s =
        if storeFull s.orch.bps = true then .refused .breakpointStoreFull
        else .next
          ({ s with
              orch := { s.orch with
                bps := s.orch.bps ++
                  [{ addr := BitVec.ofNat 16 ((readWord s.guest.mem (s.guest.pc.toNat + 2 * j)).toNat % 4096),
                     disposition := .clearAfterTrigger }] } },
            .outcome .success)) ∧
    ((∀ j : Nat, s.guest.pc.toNat + 2 * j ≤ 4094 →
        (readWord s.guest.mem (s.guest.pc.toNat + 2 * j)).toNat / 4096 ≠ 2) →
      runCommand .stepInto s = .next (s, .outcome (.fault .noSubroutine)))

/-- 47_orchestrator.md section 6 (`step_over`, `step_out`; decisions D24, D26, D35; 90_conflicts.md C9): `step_over`
plants a one-shot breakpoint at `pc + 2`, or, where the word there exists and is a call, at the call's target plus
2; `step_out` answers `NotInSubroutine` on an empty stack and otherwise plants one at the top slot; where one would
be planted into a full store the command is refused; neither changes the Guest State. -/
def Obligations.StepOverAndStepOutPlantOneShots : Prop :=
  ∀ s : State,
    (runCommand .stepOver s =
      if storeFull s.orch.bps = true then .refused .breakpointStoreFull
      else .next
        ({ s with
            orch := { s.orch with
              bps := s.orch.bps ++
                [{ addr :=
                     if (s.guest.pc + 2).toNat ≤ 4094 ∧ (readWord s.guest.mem (s.guest.pc + 2).toNat).toNat / 4096 = 2
                     then BitVec.ofNat 16 ((readWord s.guest.mem (s.guest.pc + 2).toNat).toNat % 4096 + 2)
                     else s.guest.pc + 2,
                   disposition := .clearAfterTrigger }] } },
          .outcome .success)) ∧
    (s.guest.sp.toInt = -1 → runCommand .stepOut s = .next (s, .outcome (.fault .notInSubroutine))) ∧
    (0 ≤ s.guest.sp.toInt →
      runCommand .stepOut s =
        if storeFull s.orch.bps = true then .refused .breakpointStoreFull
        else .next
          ({ s with
              orch := { s.orch with
                bps := s.orch.bps ++
                  [{ addr := s.guest.slot s.guest.sp.toInt.toNat, disposition := .clearAfterTrigger }] } },
            .outcome .success))

/-- 47_orchestrator.md section 3 (`bp_add`, `bp_remove`, `bp_clear`; decision D24): `bp_add` appends, or rejects when
the store is full; `bp_remove` keeps exactly the entries at other addresses, in order, and says how many it deleted;
`bp_clear` empties the store; nothing else changes. -/
def Obligations.BreakpointCommandsEditTheStore : Prop :=
  ∀ (addr : Word) (d : Disposition) (s : State),
    runCommand (.bpAdd addr d) s =
      (if storeFull s.orch.bps = true then .next (s, .rejected)
       else .next ({ s with orch := { s.orch with bps := s.orch.bps ++ [⟨addr, d⟩] } }, .accepted)) ∧
    (∃ (t : State) (n : Nat), runCommand (.bpRemove addr) s = .next (t, .removed n) ∧
      t = { s with orch := { s.orch with bps := t.orch.bps } } ∧
      t.orch.bps.Sublist s.orch.bps ∧
      (∀ e, e ∈ t.orch.bps ↔ e ∈ s.orch.bps ∧ e.addr ≠ addr) ∧
      t.orch.bps.length + n = s.orch.bps.length ∧
      n = (s.orch.bps.filter (fun e => decide (e.addr = addr))).length) ∧
    runCommand .bpClear s = .next ({ s with orch := { s.orch with bps := [] } }, .done)

/-- 47_orchestrator.md section 7 (the setters and rejection; decisions D18, D24, D28): `set_pc` accepts 0 to 4094 and
rejects the rest; `set_delay_timer` writes `DT`; a key above 15 is refused; and any command that answers `rejected`
leaves every piece of state as it was. -/
def Obligations.SettersWriteTheirRegisterAndRejectionChangesNothing : Prop :=
  (∀ (v : Nat) (s : State),
    (v ≤ 4094 → ∃ t, runCommand (.setPc v) s = .next (t, .accepted) ∧
      t = { s with guest := { s.guest with pc := t.guest.pc } } ∧ t.guest.pc.toNat = v) ∧
    (4094 < v → runCommand (.setPc v) s = .next (s, .rejected))) ∧
  (∀ (v : Byte) (s : State),
    runCommand (.setDelayTimer v) s = .next ({ s with guest := { s.guest with DT := v } }, .done)) ∧
  (∀ (k : Nat) (b : Bool) (s : State), 15 < k → runCommand (.setKeyState k b) s = .refused (.keyOutOfRange k)) ∧
  ∀ (c : Command) (s t : State), runCommand c s = .next (t, .rejected) → t = s

/-- 70_reset_and_hazards.md section 2 and assumption log 6: a word placed where the next step fetches is the instruction
that very step runs, from any state, if it is legal: no breakpoint, key wait or unfetchable `pc` stands between
them. -/
def Obligations.APlacedWordIsTheNextInstruction : Prop :=
  ∀ (s : State) (w : Word) (i : Instr), decodeWord w = .ok i →
    step (s.withFetchWord 16 w.toNat) =
      match exec i (timerPhase { s.withFetchWord 16 w.toNat with events := [] }) with
      | .next t    => .next (framePhase t)
      | .fault f   => .fault f
      | .refused r => .refused r
end

