-- ==== Sys2Proof/Laws/State.lean ====
section
/-! SUPPORT. One lemma per field per named update of the state: what the field is after the update. With them no proof
unfolds a record update. -/

namespace Sys2Proof.Machine

/-! ### One register written -/

@[simp] theorem setV_I (g : Guest) (r : Reg) (v : Byte) :
    (g.setV r v).I = g.I := rfl

@[simp] theorem setV_pc (g : Guest) (r : Reg) (v : Byte) :
    (g.setV r v).pc = g.pc := rfl

@[simp] theorem setV_sp (g : Guest) (r : Reg) (v : Byte) :
    (g.setV r v).sp = g.sp := rfl

@[simp] theorem setV_stack (g : Guest) (r : Reg) (v : Byte) :
    (g.setV r v).stack = g.stack := rfl

@[simp] theorem setV_DT (g : Guest) (r : Reg) (v : Byte) :
    (g.setV r v).DT = g.DT := rfl

@[simp] theorem setV_ST (g : Guest) (r : Reg) (v : Byte) :
    (g.setV r v).ST = g.ST := rfl

@[simp] theorem setV_mem (g : Guest) (r : Reg) (v : Byte) :
    (g.setV r v).mem = g.mem := rfl

@[simp] theorem setV_fb (g : Guest) (r : Reg) (v : Byte) :
    (g.setV r v).fb = g.fb := rfl

@[simp] theorem setV_key (g : Guest) (r : Reg) (v : Byte) :
    (g.setV r v).key = g.key := rfl

@[simp] theorem setV_halted (g : Guest) (r : Reg) (v : Byte) :
    (g.setV r v).halted = g.halted := rfl

@[simp] theorem setV_kpr (g : Guest) (r : Reg) (v : Byte) :
    (g.setV r v).kpr = g.kpr := rfl

@[simp] theorem setFlagThen_I (g : Guest) (b : Bool) (x : Reg) (v : Byte) :
    (g.setFlagThen b x v).I = g.I := rfl

@[simp] theorem setFlagThen_pc (g : Guest) (b : Bool) (x : Reg) (v : Byte) :
    (g.setFlagThen b x v).pc = g.pc := rfl

@[simp] theorem setFlagThen_sp (g : Guest) (b : Bool) (x : Reg) (v : Byte) :
    (g.setFlagThen b x v).sp = g.sp := rfl

@[simp] theorem setFlagThen_stack (g : Guest) (b : Bool) (x : Reg) (v : Byte) :
    (g.setFlagThen b x v).stack = g.stack := rfl

@[simp] theorem setFlagThen_DT (g : Guest) (b : Bool) (x : Reg) (v : Byte) :
    (g.setFlagThen b x v).DT = g.DT := rfl

@[simp] theorem setFlagThen_ST (g : Guest) (b : Bool) (x : Reg) (v : Byte) :
    (g.setFlagThen b x v).ST = g.ST := rfl

@[simp] theorem setFlagThen_mem (g : Guest) (b : Bool) (x : Reg) (v : Byte) :
    (g.setFlagThen b x v).mem = g.mem := rfl

@[simp] theorem setFlagThen_fb (g : Guest) (b : Bool) (x : Reg) (v : Byte) :
    (g.setFlagThen b x v).fb = g.fb := rfl

@[simp] theorem setFlagThen_key (g : Guest) (b : Bool) (x : Reg) (v : Byte) :
    (g.setFlagThen b x v).key = g.key := rfl

@[simp] theorem setFlagThen_halted (g : Guest) (b : Bool) (x : Reg) (v : Byte) :
    (g.setFlagThen b x v).halted = g.halted := rfl

@[simp] theorem setFlagThen_kpr (g : Guest) (b : Bool) (x : Reg) (v : Byte) :
    (g.setFlagThen b x v).kpr = g.kpr := rfl

/-! ### A push -/

@[simp] theorem push_V (g : Guest) (k : Fin 16) (v : Word) :
    (g.push k v).V = g.V := rfl

@[simp] theorem push_I (g : Guest) (k : Fin 16) (v : Word) :
    (g.push k v).I = g.I := rfl

@[simp] theorem push_pc (g : Guest) (k : Fin 16) (v : Word) :
    (g.push k v).pc = g.pc := rfl

@[simp] theorem push_sp (g : Guest) (k : Fin 16) (v : Word) :
    (g.push k v).sp = .top k := rfl

@[simp] theorem push_stack (g : Guest) (k : Fin 16) (v : Word) :
    (g.push k v).stack = g.stack.set k v := rfl

@[simp] theorem push_DT (g : Guest) (k : Fin 16) (v : Word) :
    (g.push k v).DT = g.DT := rfl

@[simp] theorem push_ST (g : Guest) (k : Fin 16) (v : Word) :
    (g.push k v).ST = g.ST := rfl

@[simp] theorem push_mem (g : Guest) (k : Fin 16) (v : Word) :
    (g.push k v).mem = g.mem := rfl

@[simp] theorem push_fb (g : Guest) (k : Fin 16) (v : Word) :
    (g.push k v).fb = g.fb := rfl

@[simp] theorem push_key (g : Guest) (k : Fin 16) (v : Word) :
    (g.push k v).key = g.key := rfl

@[simp] theorem push_halted (g : Guest) (k : Fin 16) (v : Word) :
    (g.push k v).halted = g.halted := rfl

@[simp] theorem push_kpr (g : Guest) (k : Fin 16) (v : Word) :
    (g.push k v).kpr = g.kpr := rfl

/-! ### A key notification -/

@[simp] theorem notifyKey_I (g : Guest) (k : Fin 16) (b : Bool) :
    (g.notifyKey k b).I = g.I := by
  unfold Guest.notifyKey; split <;> rfl

@[simp] theorem notifyKey_pc (g : Guest) (k : Fin 16) (b : Bool) :
    (g.notifyKey k b).pc = g.pc := by
  unfold Guest.notifyKey; split <;> rfl

@[simp] theorem notifyKey_sp (g : Guest) (k : Fin 16) (b : Bool) :
    (g.notifyKey k b).sp = g.sp := by
  unfold Guest.notifyKey; split <;> rfl

@[simp] theorem notifyKey_stack (g : Guest) (k : Fin 16) (b : Bool) :
    (g.notifyKey k b).stack = g.stack := by
  unfold Guest.notifyKey; split <;> rfl

@[simp] theorem notifyKey_DT (g : Guest) (k : Fin 16) (b : Bool) :
    (g.notifyKey k b).DT = g.DT := by
  unfold Guest.notifyKey; split <;> rfl

@[simp] theorem notifyKey_ST (g : Guest) (k : Fin 16) (b : Bool) :
    (g.notifyKey k b).ST = g.ST := by
  unfold Guest.notifyKey; split <;> rfl

@[simp] theorem notifyKey_mem (g : Guest) (k : Fin 16) (b : Bool) :
    (g.notifyKey k b).mem = g.mem := by
  unfold Guest.notifyKey; split <;> rfl

@[simp] theorem notifyKey_fb (g : Guest) (k : Fin 16) (b : Bool) :
    (g.notifyKey k b).fb = g.fb := by
  unfold Guest.notifyKey; split <;> rfl

@[simp] theorem notifyKey_key (g : Guest) (k : Fin 16) (b : Bool) :
    (g.notifyKey k b).key = g.key.set k b := by
  unfold Guest.notifyKey; split <;> rfl

@[simp] theorem notifyKey_kpr (g : Guest) (k : Fin 16) (b : Bool) :
    (g.notifyKey k b).kpr = g.kpr := by
  unfold Guest.notifyKey; split <;> rfl

/-! ### The begin of a stepping command -/

@[simp] theorem beginCommand_guest (s : State) :
    s.beginCommand.guest = s.guest := rfl

@[simp] theorem beginCommand_orch (s : State) :
    s.beginCommand.orch = s.orch := rfl

@[simp] theorem beginCommand_outcome (s : State) :
    s.beginCommand.outcome = s.outcome := rfl

@[simp] theorem beginCommand_events (s : State) :
    s.beginCommand.events = [] := rfl

@[simp] theorem beginCommand_randUsed (s : State) :
    s.beginCommand.randUsed = s.randUsed := rfl

/-! ### The `reset` command -/

@[simp] theorem hostReset_guest (s : State) :
    s.hostReset.guest = Guest.reset := rfl

@[simp] theorem hostReset_outcome (s : State) :
    s.hostReset.outcome = s.outcome := rfl

@[simp] theorem hostReset_events (s : State) :
    s.hostReset.events = s.events := rfl

@[simp] theorem hostReset_randUsed (s : State) :
    s.hostReset.randUsed = s.randUsed := rfl

@[simp] theorem hostReset_orch_ips (s : State) :
    s.hostReset.orch.ips = s.orch.ips := rfl

@[simp] theorem hostReset_orch_fps (s : State) :
    s.hostReset.orch.fps = s.orch.fps := rfl

@[simp] theorem hostReset_orch_stepsPerFrame (s : State) :
    s.hostReset.orch.stepsPerFrame = s.orch.stepsPerFrame := rfl

@[simp] theorem hostReset_orch_timerDivisor (s : State) :
    s.hostReset.orch.timerDivisor = s.orch.timerDivisor := rfl

@[simp] theorem hostReset_orch_maxFrameTimeMs (s : State) :
    s.hostReset.orch.maxFrameTimeMs = s.orch.maxFrameTimeMs := rfl

@[simp] theorem hostReset_orch_frameStepCounter (s : State) :
    s.hostReset.orch.frameStepCounter = 0 := rfl

@[simp] theorem hostReset_orch_timerStepCounter (s : State) :
    s.hostReset.orch.timerStepCounter = 0 := rfl

@[simp] theorem hostReset_orch_emittingTone (s : State) :
    s.hostReset.orch.emittingTone = false := rfl

@[simp] theorem hostReset_orch_bps (s : State) :
    s.hostReset.orch.bps = s.orch.bps := rfl

/-! ### A breakpoint appended -/

@[simp] theorem appendBreakpoint_guest (s : State) (a : Word) (d : Disposition) :
    (s.appendBreakpoint a d).guest = s.guest := rfl

@[simp] theorem appendBreakpoint_outcome (s : State) (a : Word) (d : Disposition) :
    (s.appendBreakpoint a d).outcome = s.outcome := rfl

@[simp] theorem appendBreakpoint_events (s : State) (a : Word) (d : Disposition) :
    (s.appendBreakpoint a d).events = s.events := rfl

@[simp] theorem appendBreakpoint_randUsed (s : State) (a : Word) (d : Disposition) :
    (s.appendBreakpoint a d).randUsed = s.randUsed := rfl

@[simp] theorem appendBreakpoint_orch_ips (s : State) (a : Word) (d : Disposition) :
    (s.appendBreakpoint a d).orch.ips = s.orch.ips := rfl

@[simp] theorem appendBreakpoint_orch_fps (s : State) (a : Word) (d : Disposition) :
    (s.appendBreakpoint a d).orch.fps = s.orch.fps := rfl

@[simp] theorem appendBreakpoint_orch_stepsPerFrame (s : State) (a : Word) (d : Disposition) :
    (s.appendBreakpoint a d).orch.stepsPerFrame = s.orch.stepsPerFrame := rfl

@[simp] theorem appendBreakpoint_orch_timerDivisor (s : State) (a : Word) (d : Disposition) :
    (s.appendBreakpoint a d).orch.timerDivisor = s.orch.timerDivisor := rfl

@[simp] theorem appendBreakpoint_orch_maxFrameTimeMs (s : State) (a : Word) (d : Disposition) :
    (s.appendBreakpoint a d).orch.maxFrameTimeMs = s.orch.maxFrameTimeMs := rfl

@[simp] theorem appendBreakpoint_orch_frameStepCounter (s : State) (a : Word) (d : Disposition) :
    (s.appendBreakpoint a d).orch.frameStepCounter = s.orch.frameStepCounter := rfl

@[simp] theorem appendBreakpoint_orch_timerStepCounter (s : State) (a : Word) (d : Disposition) :
    (s.appendBreakpoint a d).orch.timerStepCounter = s.orch.timerStepCounter := rfl

@[simp] theorem appendBreakpoint_orch_emittingTone (s : State) (a : Word) (d : Disposition) :
    (s.appendBreakpoint a d).orch.emittingTone = s.orch.emittingTone := rfl

@[simp] theorem appendBreakpoint_orch_bps (s : State) (a : Word) (d : Disposition) :
    (s.appendBreakpoint a d).orch.bps = s.orch.bps ++ [⟨a, d⟩] := rfl

/-! ### The tick -/

@[simp] theorem tick_V (s : State) :
    (tick s).guest.V = s.guest.V := rfl

@[simp] theorem tick_I (s : State) :
    (tick s).guest.I = s.guest.I := rfl

@[simp] theorem tick_pc (s : State) :
    (tick s).guest.pc = s.guest.pc := rfl

@[simp] theorem tick_sp (s : State) :
    (tick s).guest.sp = s.guest.sp := rfl

@[simp] theorem tick_stack (s : State) :
    (tick s).guest.stack = s.guest.stack := rfl

@[simp] theorem tick_DT (s : State) :
    (tick s).guest.DT = countDown s.guest.DT := rfl

@[simp] theorem tick_ST (s : State) :
    (tick s).guest.ST = countDown s.guest.ST := rfl

@[simp] theorem tick_mem (s : State) :
    (tick s).guest.mem = s.guest.mem := rfl

@[simp] theorem tick_fb (s : State) :
    (tick s).guest.fb = s.guest.fb := rfl

@[simp] theorem tick_key (s : State) :
    (tick s).guest.key = s.guest.key := rfl

@[simp] theorem tick_halted (s : State) :
    (tick s).guest.halted = s.guest.halted := rfl

@[simp] theorem tick_kpr (s : State) :
    (tick s).guest.kpr = s.guest.kpr := rfl

@[simp] theorem tick_orch_ips (s : State) :
    (tick s).orch.ips = s.orch.ips := rfl

@[simp] theorem tick_orch_fps (s : State) :
    (tick s).orch.fps = s.orch.fps := rfl

@[simp] theorem tick_orch_stepsPerFrame (s : State) :
    (tick s).orch.stepsPerFrame = s.orch.stepsPerFrame := rfl

@[simp] theorem tick_orch_timerDivisor (s : State) :
    (tick s).orch.timerDivisor = s.orch.timerDivisor := rfl

@[simp] theorem tick_orch_maxFrameTimeMs (s : State) :
    (tick s).orch.maxFrameTimeMs = s.orch.maxFrameTimeMs := rfl

@[simp] theorem tick_orch_frameStepCounter (s : State) :
    (tick s).orch.frameStepCounter = s.orch.frameStepCounter := rfl

@[simp] theorem tick_orch_timerStepCounter (s : State) :
    (tick s).orch.timerStepCounter = s.orch.timerStepCounter := rfl

@[simp] theorem tick_orch_emittingTone (s : State) :
    (tick s).orch.emittingTone = ((s.orch.emittingTone || s.toneStarts) && decide ((countDown s.guest.ST).toNat > 0)) := rfl

@[simp] theorem tick_orch_bps (s : State) :
    (tick s).orch.bps = s.orch.bps := rfl

@[simp] theorem tick_outcome (s : State) :
    (tick s).outcome = s.outcome := rfl

@[simp] theorem tick_randUsed (s : State) :
    (tick s).randUsed = s.randUsed := rfl

/-! ### The timer phase -/

@[simp] theorem timerPhase_V (s : State) :
    (timerPhase s).guest.V = s.guest.V := by
  unfold timerPhase; split <;> rfl

@[simp] theorem timerPhase_I (s : State) :
    (timerPhase s).guest.I = s.guest.I := by
  unfold timerPhase; split <;> rfl

@[simp] theorem timerPhase_pc (s : State) :
    (timerPhase s).guest.pc = s.guest.pc := by
  unfold timerPhase; split <;> rfl

@[simp] theorem timerPhase_sp (s : State) :
    (timerPhase s).guest.sp = s.guest.sp := by
  unfold timerPhase; split <;> rfl

@[simp] theorem timerPhase_stack (s : State) :
    (timerPhase s).guest.stack = s.guest.stack := by
  unfold timerPhase; split <;> rfl

@[simp] theorem timerPhase_mem (s : State) :
    (timerPhase s).guest.mem = s.guest.mem := by
  unfold timerPhase; split <;> rfl

@[simp] theorem timerPhase_fb (s : State) :
    (timerPhase s).guest.fb = s.guest.fb := by
  unfold timerPhase; split <;> rfl

@[simp] theorem timerPhase_key (s : State) :
    (timerPhase s).guest.key = s.guest.key := by
  unfold timerPhase; split <;> rfl

@[simp] theorem timerPhase_halted (s : State) :
    (timerPhase s).guest.halted = s.guest.halted := by
  unfold timerPhase; split <;> rfl

@[simp] theorem timerPhase_kpr (s : State) :
    (timerPhase s).guest.kpr = s.guest.kpr := by
  unfold timerPhase; split <;> rfl

@[simp] theorem timerPhase_orch_ips (s : State) :
    (timerPhase s).orch.ips = s.orch.ips := by
  unfold timerPhase; split <;> rfl

@[simp] theorem timerPhase_orch_fps (s : State) :
    (timerPhase s).orch.fps = s.orch.fps := by
  unfold timerPhase; split <;> rfl

@[simp] theorem timerPhase_orch_stepsPerFrame (s : State) :
    (timerPhase s).orch.stepsPerFrame = s.orch.stepsPerFrame := by
  unfold timerPhase; split <;> rfl

@[simp] theorem timerPhase_orch_timerDivisor (s : State) :
    (timerPhase s).orch.timerDivisor = s.orch.timerDivisor := by
  unfold timerPhase; split <;> rfl

@[simp] theorem timerPhase_orch_maxFrameTimeMs (s : State) :
    (timerPhase s).orch.maxFrameTimeMs = s.orch.maxFrameTimeMs := by
  unfold timerPhase; split <;> rfl

@[simp] theorem timerPhase_orch_frameStepCounter (s : State) :
    (timerPhase s).orch.frameStepCounter = s.orch.frameStepCounter := by
  unfold timerPhase; split <;> rfl

@[simp] theorem timerPhase_orch_timerStepCounter (s : State) :
    (timerPhase s).orch.timerStepCounter = if s.orch.timerStepCounter + 1 ≥ s.orch.timerDivisor then 0 else s.orch.timerStepCounter + 1 := by
  unfold timerPhase; split <;> rfl

@[simp] theorem timerPhase_orch_bps (s : State) :
    (timerPhase s).orch.bps = s.orch.bps := by
  unfold timerPhase; split <;> rfl

@[simp] theorem timerPhase_randUsed (s : State) :
    (timerPhase s).randUsed = s.randUsed := by
  unfold timerPhase; split <;> rfl

@[simp] theorem timerPhase_outcome (s : State) :
    (timerPhase s).outcome = s.outcome := by
  unfold timerPhase; split <;> rfl

/-! ### The frame phase -/

@[simp] theorem framePhase_guest (s : State) :
    (framePhase s).guest = s.guest := by
  unfold framePhase; split <;> rfl

@[simp] theorem framePhase_orch_ips (s : State) :
    (framePhase s).orch.ips = s.orch.ips := by
  unfold framePhase; split <;> rfl

@[simp] theorem framePhase_orch_fps (s : State) :
    (framePhase s).orch.fps = s.orch.fps := by
  unfold framePhase; split <;> rfl

@[simp] theorem framePhase_orch_stepsPerFrame (s : State) :
    (framePhase s).orch.stepsPerFrame = s.orch.stepsPerFrame := by
  unfold framePhase; split <;> rfl

@[simp] theorem framePhase_orch_timerDivisor (s : State) :
    (framePhase s).orch.timerDivisor = s.orch.timerDivisor := by
  unfold framePhase; split <;> rfl

@[simp] theorem framePhase_orch_maxFrameTimeMs (s : State) :
    (framePhase s).orch.maxFrameTimeMs = s.orch.maxFrameTimeMs := by
  unfold framePhase; split <;> rfl

@[simp] theorem framePhase_orch_frameStepCounter (s : State) :
    (framePhase s).orch.frameStepCounter = if s.orch.frameStepCounter + 1 ≥ s.orch.stepsPerFrame then 0 else s.orch.frameStepCounter + 1 := by
  unfold framePhase; split <;> rfl

@[simp] theorem framePhase_orch_timerStepCounter (s : State) :
    (framePhase s).orch.timerStepCounter = s.orch.timerStepCounter := by
  unfold framePhase; split <;> rfl

@[simp] theorem framePhase_orch_emittingTone (s : State) :
    (framePhase s).orch.emittingTone = s.orch.emittingTone := by
  unfold framePhase; split <;> rfl

@[simp] theorem framePhase_orch_bps (s : State) :
    (framePhase s).orch.bps = s.orch.bps := by
  unfold framePhase; split <;> rfl

@[simp] theorem framePhase_outcome (s : State) :
    (framePhase s).outcome = s.outcome := by
  unfold framePhase; split <;> rfl

@[simp] theorem framePhase_randUsed (s : State) :
    (framePhase s).randUsed = s.randUsed := by
  unfold framePhase; split <;> rfl

end Sys2Proof.Machine
end

