-- ==== Sys2Proof/Laws/Registers.lean ====
section
/-! SUPPORT. The laws of the general registers, the flag write, the call stack and the register copies. -/

namespace Sys2Proof.Machine

@[simp] theorem getV_setV_same (g : Guest) (x : Reg) (v : Byte) : (g.setV x v).getV x = v := by
  simp [Guest.getV, Guest.setV]

theorem getV_setV_other (g : Guest) {x r : Reg} (v : Byte) (h : r ≠ x) : (g.setV x v).getV r = g.getV r := by
  have : x.val ≠ r.val := fun e => h (Fin.ext e.symm)
  simp [Guest.getV, Guest.setV, this]

/-- The result is written last: it is what the destination holds, `VF` included (40_step.md R55). -/
@[simp] theorem getV_setFlagThen_dest (g : Guest) (b : Bool) (x : Reg) (v : Byte) :
    (g.setFlagThen b x v).getV x = v := by
  simp [Guest.setFlagThen]

theorem getV_setFlagThen_flag (g : Guest) (b : Bool) {x : Reg} (v : Byte) (h : x ≠ 15) :
    (g.setFlagThen b x v).getV 15 = flagByte b := by
  rw [Guest.setFlagThen, getV_setV_other _ _ (Ne.symm h), show regF = 15 from rfl, getV_setV_same]

theorem getV_setFlagThen_other (g : Guest) (b : Bool) {x r : Reg} (v : Byte) (hx : r ≠ x) (hf : r ≠ 15) :
    (g.setFlagThen b x v).getV r = g.getV r := by
  rw [Guest.setFlagThen, getV_setV_other _ _ hx, show regF = 15 from rfl, getV_setV_other _ _ hf]

/-- `getV` reads `V` alone. -/
theorem getV_of_V {g h : Guest} (e : g.V = h.V) (r : Reg) : g.getV r = h.getV r := by
  simp [Guest.getV, e]

theorem flagByte_zero_or_one (b : Bool) : flagByte b = 0 ∨ flagByte b = 1 := by
  cases b <;> simp [flagByte]

theorem flagByte_eq_one_iff (b : Bool) : flagByte b = 1 ↔ b = true := by
  cases b <;> simp [flagByte]

/-! ### The stack -/

theorem slot_of_lt (g : Guest) {k : Nat} (h : k < 16) : g.slot k = g.stack[k] := by
  simp [Guest.slot, h]

theorem slot_push_same (g : Guest) (k : Fin 16) (v : Word) : (g.push k v).slot k.val = v := by
  simp [Guest.slot, k.isLt]

theorem slot_push_other (g : Guest) (k : Fin 16) (v : Word) {j : Nat} (h : j ≠ k.val) :
    (g.push k v).slot j = g.slot j := by
  unfold Guest.slot
  split
  · simp [Ne.symm h]
  · rfl

/-! ### The register copies (43_index_memory.md R86, R87) -/

theorem regsUpTo_length (g : Guest) (x : Reg) : (g.regsUpTo x).length = x.val + 1 := by
  simp [Guest.regsUpTo]

theorem regsUpTo_getElem (g : Guest) (x : Reg) (j : Nat) (h : j < (g.regsUpTo x).length) :
    (g.regsUpTo x)[j] = g.getV ⟨j, by have := regsUpTo_length g x; have := x.isLt; omega⟩ := by
  simp [Guest.regsUpTo, Guest.getV]

theorem bcdDigits_length (v : Byte) : (bcdDigits v).length = 3 := rfl

/-- `loadFrom` reads its first `n` registers from memory and leaves the others. -/
theorem loadFrom_getElem (m : Memory) (a : Nat) (V : Vector Byte 16) : ∀ (n j : Nat) (h : j < 16),
    (loadFrom m a n V)[j] = if j < n then readByte m (a + j) else V[j] := by
  intro n
  induction n with
  | zero => intro j h; simp [loadFrom]
  | succ n ih =>
    intro j h
    rw [loadFrom, Vector.getElem_setIfInBounds]
    by_cases hj : n = j
    · subst hj; simp
    · rw [if_neg hj, ih j h]
      by_cases hlt : j < n
      · rw [if_pos hlt, if_pos (by omega)]
      · rw [if_neg hlt, if_neg (by omega)]

/-! ### Key indices (45_keypad_timers.md R91) -/

theorem keyIndex_of_lt {v : Byte} (h : v.toNat < 16) : keyIndex v = some ⟨v.toNat, h⟩ := by
  simp [keyIndex, h]

theorem keyIndex_of_ge {v : Byte} (h : 15 < v.toNat) : keyIndex v = none := by
  simp [keyIndex]; omega

end Sys2Proof.Machine
end

