-- ==== Sys2Proof/Laws/Display.lean ====
section
/-! SUPPORT. The laws of the framebuffer, and what drawing a bit, a row and several rows does to every pixel. -/

namespace Sys2Proof.Machine

theorem toggle_getElem (fb : Framebuffer) (px py j : Nat) (h : j < 32) :
    (fb.toggle px py)[j] = if j = py % 32 then fb[j] ^^^ BitVec.twoPow 64 px else fb[j] := by
  unfold Framebuffer.toggle
  rw [Vector.getElem_set]
  by_cases e : py % 32 = j
  · subst e; simp
  · rw [if_neg e, if_neg (Ne.symm e)]

/-- A toggle inverts its own cell and leaves every other cell alone. -/
theorem pixel_toggle (fb : Framebuffer) {px py qx qy : Nat} (hp : px < 64) :
    (fb.toggle px py).pixel qx qy = (fb.pixel qx qy ^^ decide (qx = px ∧ qy % 32 = py % 32)) := by
  unfold Framebuffer.pixel
  rw [toggle_getElem _ _ _ _ (Nat.mod_lt _ (by decide))]
  by_cases hy : qy % 32 = py % 32
  · rw [if_pos hy, BitVec.getLsbD_xor, BitVec.getLsbD_twoPow]
    by_cases hx : px = qx
    · subst hx; simp [hp, hy]
    · simp [hx, Ne.symm hx]
  · rw [if_neg hy]; simp [hy]

@[simp] theorem pixel_blank (px py : Nat) : Framebuffer.blank.pixel px py = false := by
  simp [Framebuffer.pixel, Framebuffer.blank]

/-- Two framebuffers with the same 2048 cells are equal. -/
theorem Framebuffer.ext_pixel {a b : Framebuffer} (h : ∀ px py, px < 64 → py < 32 → a.pixel px py = b.pixel px py) :
    a = b := by
  apply Vector.ext
  intro j hj
  apply BitVec.eq_of_getLsbD_eq
  intro k hk
  have := h k j hk hj
  simpa [Framebuffer.pixel, Nat.mod_eq_of_lt hj] using this

theorem colorOn_ne_colorOff : Config.colorOn ≠ Config.colorOff := by
  intro h
  have hg := Config.colorGap.isLt
  have := congrArg BitVec.toNat h
  simp only [Config.colorOff, BitVec.toNat_add, BitVec.toNat_ofNat] at this
  have hc := Config.colorOn.isLt
  omega

/-! ### Drawing -/

/-- A cell is covered by one of the first `n` columns of the row byte `b` drawn as row `row`. -/
def RowCovers (b vx vy : Byte) (row n qx qy : Nat) : Prop :=
  ∃ col, col < n ∧ (vx.toNat + col) % 64 = qx ∧ (vy.toNat + row) % 32 = qy ∧ b.getLsbD (7 - col) = true

theorem drawCols_pixel (b vx vy : Byte) (row : Nat) (d : Drawing) : ∀ n, n ≤ 8 → ∀ qx qy, qx < 64 → qy < 32 →
    ((drawCols b vx vy row n d).fb.pixel qx qy = true ↔
      ¬ (d.fb.pixel qx qy = true ↔ RowCovers b vx vy row n qx qy)) := by
  intro n
  induction n with
  | zero => intro _ qx qy _ _; simp [drawCols, RowCovers]
  | succ n ih =>
    intro hn qx qy hx hy
    have ih := ih (by omega) qx qy hx hy
    have hstep : RowCovers b vx vy row (n + 1) qx qy ↔
        (RowCovers b vx vy row n qx qy ∨
          ((vx.toNat + n) % 64 = qx ∧ (vy.toNat + row) % 32 = qy ∧ b.getLsbD (7 - n) = true)) := by
      constructor
      · rintro ⟨col, h1, h2, h3, h4⟩
        by_cases hc : col = n
        · subst hc; exact .inr ⟨h2, h3, h4⟩
        · exact .inl ⟨col, by omega, h2, h3, h4⟩
      · rintro (⟨col, h1, h2⟩ | h)
        · exact ⟨col, by omega, h2⟩
        · exact ⟨n, by omega, h⟩
    have hdisj : (vx.toNat + n) % 64 = qx → ¬ RowCovers b vx vy row n qx qy := by
      rintro h ⟨col, h1, h2, -⟩
      omega
    rw [drawCols, drawBit]
    split
    · rename_i hb
      simp only [pixelColumn, pixelRow, Config.fbWidth, Config.fbHeight]
      rw [pixel_toggle _ (Nat.mod_lt _ (by decide)), hstep]
      have hym : qy % 32 = qy := Nat.mod_eq_of_lt hy
      rw [hym, Nat.mod_mod]
      by_cases hc : qx = (vx.toNat + n) % 64 ∧ qy = (vy.toNat + row) % 32
      · have hn' := hdisj hc.1.symm
        simp only [hc.1.symm, hc.2.symm, hb, hn', iff_false, not_not] at ih ⊢
        simp only [and_self, decide_true, Bool.xor_true, or_true]
        cases hd : d.fb.pixel qx qy <;> simp_all
      · have : ¬ ((vx.toNat + n) % 64 = qx ∧ (vy.toNat + row) % 32 = qy ∧ b.getLsbD (7 - n) = true) := by
          rintro ⟨h1, h2, -⟩; exact hc ⟨h1.symm, h2.symm⟩
        simp only [this, or_false, hc, decide_false, Bool.xor_false]
        exact ih
    · rename_i hb
      have : ¬ ((vx.toNat + n) % 64 = qx ∧ (vy.toNat + row) % 32 = qy ∧ b.getLsbD (7 - n) = true) := by
        rintro ⟨-, -, h⟩; exact hb h
      rw [hstep]
      simp only [this, or_false]
      exact ih

theorem drawCols_collided (b vx vy : Byte) (row : Nat) (d : Drawing) : ∀ n, n ≤ 8 →
    ((drawCols b vx vy row n d).collided = true ↔
      (d.collided = true ∨ ∃ qx qy, d.fb.pixel qx qy = true ∧ RowCovers b vx vy row n qx qy)) := by
  intro n
  induction n with
  | zero => intro _; simp [drawCols, RowCovers]
  | succ n ih =>
    intro hn
    have ih := ih (by omega)
    have hpix := drawCols_pixel b vx vy row d n (by omega) ((vx.toNat + n) % 64) ((vy.toNat + row) % 32)
      (Nat.mod_lt _ (by decide)) (Nat.mod_lt _ (by decide))
    have hnot : ¬ RowCovers b vx vy row n ((vx.toNat + n) % 64) ((vy.toNat + row) % 32) := by
      rintro ⟨col, h1, h2, -⟩; omega
    rw [drawCols, drawBit]
    split
    · rename_i hb
      simp only [pixelColumn, pixelRow, Config.fbWidth, Config.fbHeight, Bool.or_eq_true]
      rw [ih, hpix]
      constructor
      · rintro ((h | ⟨qx, qy, h, col, h1, h2⟩) | h)
        · exact .inl h
        · exact .inr ⟨qx, qy, h, col, by omega, h2⟩
        · refine .inr ⟨_, _, ?_, n, by omega, rfl, rfl, hb⟩
          simpa [hnot] using h
      · rintro (h | ⟨qx, qy, h, col, h1, h2, h3, h4⟩)
        · exact .inl (.inl h)
        · by_cases hc : col = n
          · subst hc; subst h2; subst h3
            right; simpa [hnot] using h
          · exact .inl (.inr ⟨qx, qy, h, col, by omega, h2, h3, h4⟩)
    · rename_i hb
      rw [ih]
      constructor
      · rintro (h | ⟨qx, qy, h, col, h1, h2⟩)
        · exact .inl h
        · exact .inr ⟨qx, qy, h, col, by omega, h2⟩
      · rintro (h | ⟨qx, qy, h, col, h1, h2, h3, h4⟩)
        · exact .inl h
        · refine .inr ⟨qx, qy, h, col, ?_, h2, h3, h4⟩
          rcases Nat.lt_or_ge col n with hlt | hge
          · exact hlt
          · have : col = n := by omega
            subst this; exact absurd h4 hb

/-- How many of `n` rows from row `row` on lie in memory. -/
theorem drawRows_all {m : Memory} {i : Nat} {vx vy : Byte} : ∀ (n row : Nat) (d : Drawing),
    n = 0 ∨ i + row + n ≤ 4096 → (drawRows m i vx vy n row d).2 = true := by
  intro n
  induction n with
  | zero => intros; rfl
  | succ n ih =>
    intro row d h
    have : outOfMemory (i + row) = false := by simp [outOfMemory, Config.memTop]; omega
    rw [drawRows, this]
    exact ih _ _ (by omega)

theorem drawRows_fault {m : Memory} {i : Nat} {vx vy : Byte} : ∀ (n row : Nat) (d : Drawing),
    n ≠ 0 → i + row + n > 4096 →
    drawRows m i vx vy n row d = ((drawRows m i vx vy (4096 - (i + row)) row d).1, false) := by
  intro n
  induction n with
  | zero => intro _ _ h; exact absurd rfl h
  | succ n ih =>
    intro row d _ h
    rw [drawRows]
    by_cases ho : i + row > 4095
    · have h1 : outOfMemory (i + row) = true := by simp [outOfMemory, Config.memTop]; omega
      have h2 : 4096 - (i + row) = 0 := by omega
      rw [if_pos h1, h2]; rfl
    · have h1 : outOfMemory (i + row) = false := by simp [outOfMemory, Config.memTop]; omega
      have h2 : 4096 - (i + row) = (4096 - (i + (row + 1))) + 1 := by omega
      rw [h1, h2]
      simp only [drawRows, h1, Bool.false_eq_true, if_false]
      exact ih (row + 1) _ (by omega) (by omega)

/-- A cell is covered by one of the rows `row` to `row + n - 1` of the sprite at `i`. -/
def RowsCover (m : Memory) (i : Nat) (vx vy : Byte) (row n qx qy : Nat) : Prop :=
  ∃ k, k < n ∧ RowCovers (readByte m (i + (row + k))) vx vy (row + k) 8 qx qy

theorem rowsCover_succ {m : Memory} {i : Nat} {vx vy : Byte} {row n qx qy : Nat} :
    RowsCover m i vx vy row (n + 1) qx qy ↔
      (RowCovers (readByte m (i + row)) vx vy row 8 qx qy ∨ RowsCover m i vx vy (row + 1) n qx qy) := by
  constructor
  · rintro ⟨k, hk, h⟩
    cases k with
    | zero => exact .inl h
    | succ k => exact .inr ⟨k, by omega, by rwa [show row + 1 + k = row + (k + 1) by omega]⟩
  · rintro (h | ⟨k, hk, h⟩)
    · exact ⟨0, by omega, h⟩
    · exact ⟨k + 1, by omega, by rwa [show row + (k + 1) = row + 1 + k by omega]⟩

/-- Rows of one sprite never overlap: a sprite has at most 15 rows and the framebuffer 32. -/
theorem rows_disjoint {m : Memory} {i : Nat} {vx vy b : Byte} {row n qx qy : Nat} (hn : n ≤ 31)
    (h : RowCovers b vx vy row 8 qx qy) : ¬ RowsCover m i vx vy (row + 1) n qx qy := by
  rintro ⟨k, hk, col', -, -, h', -⟩
  obtain ⟨col, -, -, h2, -⟩ := h
  omega

/-- The pixels after drawing: those covered are inverted (44_display.md R90). -/
theorem drawRows_pixel {m : Memory} {i : Nat} {vx vy : Byte} : ∀ (n row : Nat) (d : Drawing),
    n ≤ 32 → n = 0 ∨ i + row + n ≤ 4096 → ∀ qx qy, qx < 64 → qy < 32 →
    ((drawRows m i vx vy n row d).1.fb.pixel qx qy = true ↔
      ¬ (d.fb.pixel qx qy = true ↔ RowsCover m i vx vy row n qx qy)) := by
  intro n
  induction n with
  | zero => intro row d _ _ qx qy _ _; simp [drawRows, RowsCover]
  | succ n ih =>
    intro row d hn h qx qy hx hy
    have ho : outOfMemory (i + row) = false := by simp [outOfMemory, Config.memTop]; omega
    rw [drawRows, ho]
    simp only [Bool.false_eq_true, if_false]
    rw [ih (row + 1) _ (by omega) (by omega) qx qy hx hy, drawRow, drawCols_pixel _ _ _ _ _ 8 (by omega) qx qy hx hy,
      rowsCover_succ]
    have := @rows_disjoint m i vx vy (readByte m (i + row)) row n qx qy (by omega)
    tauto

/-- The collision flag after drawing: some covered cell was on (44_display.md R90). -/
theorem drawRows_collided {m : Memory} {i : Nat} {vx vy : Byte} : ∀ (n row : Nat) (d : Drawing),
    n ≤ 32 → n = 0 ∨ i + row + n ≤ 4096 →
    ((drawRows m i vx vy n row d).1.collided = true ↔
      (d.collided = true ∨ ∃ qx qy, d.fb.pixel qx qy = true ∧ RowsCover m i vx vy row n qx qy)) := by
  intro n
  induction n with
  | zero => intro row d _ _; simp [drawRows, RowsCover]
  | succ n ih =>
    intro row d hn h
    have ho : outOfMemory (i + row) = false := by simp [outOfMemory, Config.memTop]; omega
    rw [drawRows, ho]
    simp only [Bool.false_eq_true, if_false]
    rw [ih (row + 1) _ (by omega) (by omega), drawRow, drawCols_collided _ _ _ _ _ 8 (by omega)]
    have hpix := fun qx qy hx hy => drawCols_pixel (readByte m (i + row)) vx vy row d 8 (by omega) qx qy hx hy
    constructor
    · rintro ((h | ⟨qx, qy, h1, h2⟩) | ⟨qx, qy, h1, h2⟩)
      · exact .inl h
      · exact .inr ⟨qx, qy, h1, rowsCover_succ.mpr (.inl h2)⟩
      · obtain ⟨k, hk, col, hc, e1, e2, hb⟩ := h2
        have hx : qx < 64 := by omega
        have hy : qy < 32 := by omega
        have hnot : ¬ RowCovers (readByte m (i + row)) vx vy row 8 qx qy :=
          fun hr => rows_disjoint (m := m) (i := i) (n := n) (by omega) hr ⟨k, hk, col, hc, e1, e2, hb⟩
        refine .inr ⟨qx, qy, ?_, rowsCover_succ.mpr (.inr ⟨k, hk, col, hc, e1, e2, hb⟩)⟩
        have := (hpix qx qy hx hy).mp h1
        simpa [hnot] using this
    · rintro (h | ⟨qx, qy, h1, h2⟩)
      · exact .inl (.inl h)
      · rcases rowsCover_succ.mp h2 with h2 | h2
        · exact .inl (.inr ⟨qx, qy, h1, h2⟩)
        · refine .inr ⟨qx, qy, ?_, h2⟩
          obtain ⟨k, hk, col, hc, e1, e2, hb⟩ := h2
          have hx : qx < 64 := by omega
          have hy : qy < 32 := by omega
          have hnot : ¬ RowCovers (readByte m (i + row)) vx vy row 8 qx qy :=
            fun hr => rows_disjoint (m := m) (i := i) (n := n) (by omega) hr ⟨k, hk, col, hc, e1, e2, hb⟩
          rw [hpix qx qy hx hy]
          simpa [hnot] using h1

/-- The claims' `Covers` is the rows from 0 on. -/
theorem covers_iff_rowsCover {m : Memory} {i : Nat} {vx vy : Byte} {n qx qy : Nat} :
    Covers m i vx vy n qx qy ↔ RowsCover m i vx vy 0 n qx qy := by
  constructor
  · rintro ⟨row, col, h1, h2, h3, h4, h5⟩
    exact ⟨row, h1, col, h2, h3, by simpa using h4, by simpa using h5⟩
  · rintro ⟨k, hk, col, h2, h3, h4, h5⟩
    exact ⟨k, col, hk, h2, h3, by simpa using h4, by simpa using h5⟩

end Sys2Proof.Machine
end

