-- ==== Sys2Proof/Laws/Decode.lean ====
section
/-! SUPPORT. The laws of words, fields and encodings, as arithmetic on natural numbers. -/

namespace Sys2Proof

theorem wordOfBytes_toNat (hi lo : Byte) : (wordOfBytes hi lo).toNat = hi.toNat * 256 + lo.toNat := by
  have := hi.isLt
  have := lo.isLt
  have h : (wordOfBytes hi lo).toNat = hi.toNat <<< 8 ||| lo.toNat := BitVec.toNat_append hi lo
  rw [h, ← Nat.shiftLeft_add_eq_or_of_lt lo.isLt, Nat.shiftLeft_eq]

/-- Splitting a word into its bytes and fetching them gives the word back (20_memory.md R28). -/
theorem wordOfBytes_bytesOfWord (w : Word) : wordOfBytes (w.extractLsb' 8 8) (w.extractLsb' 0 8) = w := by
  apply BitVec.eq_of_toNat_eq
  have := w.isLt
  rw [wordOfBytes_toNat]
  simp only [BitVec.extractLsb'_toNat, Nat.shiftRight_eq_div_pow]
  omega

theorem group_toNat (w : Word) : (fieldsOf w).group.toNat = w.toNat / 4096 := by
  have := w.isLt
  simp only [fieldsOf, BitVec.extractLsb'_toNat, Nat.shiftRight_eq_div_pow]; omega

theorem x_toNat (w : Word) : (fieldsOf w).x.toNat = w.toNat / 256 % 16 := by
  simp only [fieldsOf, BitVec.extractLsb'_toNat, Nat.shiftRight_eq_div_pow]

theorem y_toNat (w : Word) : (fieldsOf w).y.toNat = w.toNat / 16 % 16 := by
  simp only [fieldsOf, BitVec.extractLsb'_toNat, Nat.shiftRight_eq_div_pow]

theorem address_toNat (w : Word) : (fieldsOf w).address.toNat = w.toNat % 4096 := by
  simp only [fieldsOf, BitVec.extractLsb'_toNat, Nat.shiftRight_eq_div_pow]; omega

theorem byte_toNat (w : Word) : (fieldsOf w).byte.toNat = w.toNat % 256 := by
  simp only [fieldsOf, BitVec.extractLsb'_toNat, Nat.shiftRight_eq_div_pow]; omega

theorem nibble_toNat (w : Word) : (fieldsOf w).nibble.toNat = w.toNat % 16 := by
  simp only [fieldsOf, BitVec.extractLsb'_toNat, Nat.shiftRight_eq_div_pow]; omega

theorem regOf_val (n : BitVec 4) : (regOf n).val = n.toNat := rfl

theorem addrOf_toNat (w : Word) : (addrOf (fieldsOf w)).toNat = w.toNat % 4096 := by
  have := address_toNat w
  simp only [addrOf, BitVec.toNat_setWidth]; omega

/-! ### The shapes of Table R42 -/

theorem encNNN_toNat {m : Nat} {a : Word} (hm : m % 4096 = 0) (h : m < 65536) (ha : a.toNat ≤ 4095) :
    (encNNN m a).toNat = m + a.toNat := by
  simp only [encNNN, BitVec.toNat_ofNat]; omega

theorem encXKK_toNat {m : Nat} (x : Reg) (k : Byte) (h : m + 4095 < 65536) :
    (encXKK m x k).toNat = m + x.val * 256 + k.toNat := by
  have := x.isLt
  have := k.isLt
  simp only [encXKK, BitVec.toNat_ofNat]; omega

theorem encXY_toNat {m : Nat} (x y : Reg) (h : m + 4080 < 65536) :
    (encXY m x y).toNat = m + x.val * 256 + y.val * 16 := by
  have := x.isLt
  have := y.isLt
  simp only [encXY, BitVec.toNat_ofNat]; omega

theorem encXYN_toNat {m n : Nat} (x y : Reg) (h : m + 4095 < 65536) (hn : n ≤ 15) :
    (encXYN m x y n).toNat = m + x.val * 256 + y.val * 16 + n := by
  have := x.isLt
  have := y.isLt
  simp only [encXYN, BitVec.toNat_ofNat]; omega

theorem encX_toNat {m : Nat} (x : Reg) (h : m + 3840 < 65536) : (encX m x).toNat = m + x.val * 256 := by
  have := x.isLt
  simp only [encX, BitVec.toNat_ofNat]; omega

/-! ### What the decoder's fields are, shape by shape -/

theorem byte_eq {w : Word} {k : Byte} (h : w.toNat % 256 = k.toNat) : (fieldsOf w).byte = k :=
  BitVec.eq_of_toNat_eq (by rw [byte_toNat, h])

theorem addrOf_eq {w a : Word} (h : w.toNat % 4096 = a.toNat) : addrOf (fieldsOf w) = a :=
  BitVec.eq_of_toNat_eq (by rw [addrOf_toNat, h])

theorem regX_eq {w : Word} {x : Reg} (h : w.toNat / 256 % 16 = x.val) : regOf (fieldsOf w).x = x :=
  Fin.ext (by rw [regOf_val, x_toNat, h])

theorem regY_eq {w : Word} {y : Reg} (h : w.toNat / 16 % 16 = y.val) : regOf (fieldsOf w).y = y :=
  Fin.ext (by rw [regOf_val, y_toNat, h])

theorem fields_encNNN {m : Nat} {a : Word} (hm : m % 4096 = 0) (h : m < 65536) (ha : a.toNat ≤ 4095) :
    (fieldsOf (encNNN m a)).group.toNat = m / 4096 ∧ addrOf (fieldsOf (encNNN m a)) = a := by
  have e := encNNN_toNat hm h ha
  exact ⟨by rw [group_toNat, e]; omega, addrOf_eq (by rw [e]; omega)⟩

theorem fields_encXKK {m : Nat} (x : Reg) (k : Byte) (hm : m % 4096 = 0) (h : m + 4095 < 65536) :
    (fieldsOf (encXKK m x k)).group.toNat = m / 4096 ∧ regOf (fieldsOf (encXKK m x k)).x = x ∧
      (fieldsOf (encXKK m x k)).byte = k := by
  have e := encXKK_toNat x k h
  have := x.isLt
  have := k.isLt
  exact ⟨by rw [group_toNat, e]; omega, regX_eq (by rw [e]; omega), byte_eq (by rw [e]; omega)⟩

theorem fields_encXY {m : Nat} (x y : Reg) (hm : m % 4096 < 16) (h : m + 4080 < 65536) :
    (fieldsOf (encXY m x y)).group.toNat = m / 4096 ∧ regOf (fieldsOf (encXY m x y)).x = x ∧
      regOf (fieldsOf (encXY m x y)).y = y ∧ (fieldsOf (encXY m x y)).nibble.toNat = m % 16 := by
  have e := encXY_toNat x y h
  have := x.isLt
  have := y.isLt
  exact ⟨by rw [group_toNat, e]; omega, regX_eq (by rw [e]; omega), regY_eq (by rw [e]; omega),
    by rw [nibble_toNat, e]; omega⟩

theorem fields_encXYN {m n : Nat} (x y : Reg) (hm : m % 4096 = 0) (h : m + 4095 < 65536) (hn : n ≤ 15) :
    (fieldsOf (encXYN m x y n)).group.toNat = m / 4096 ∧ regOf (fieldsOf (encXYN m x y n)).x = x ∧
      regOf (fieldsOf (encXYN m x y n)).y = y ∧ (fieldsOf (encXYN m x y n)).nibble.toNat = n := by
  have e := encXYN_toNat x y h hn
  have := x.isLt
  have := y.isLt
  exact ⟨by rw [group_toNat, e]; omega, regX_eq (by rw [e]; omega), regY_eq (by rw [e]; omega),
    by rw [nibble_toNat, e]; omega⟩

theorem fields_encX {m : Nat} (x : Reg) (hm : m % 4096 < 256) (h : m + 3840 < 65536) :
    (fieldsOf (encX m x)).group.toNat = m / 4096 ∧ regOf (fieldsOf (encX m x)).x = x ∧
      (fieldsOf (encX m x)).byte.toNat = m % 256 ∧ (fieldsOf (encX m x)).nibble.toNat = m % 16 := by
  have e := encX_toNat x h
  have := x.isLt
  exact ⟨by rw [group_toNat, e]; omega, regX_eq (by rw [e]; omega), by rw [byte_toNat, e]; omega,
    by rw [nibble_toNat, e]; omega⟩

/-- Decoding a word's own two bytes is decoding the word. -/
theorem decode_bytesOfWord (w : Word) (rest : List Byte) :
    decode (bytesOfWord w ++ rest) = (decodeWord w).map (fun i => (i, rest)) := by
  show (decodeWord (wordOfBytes (w.extractLsb' 8 8) (w.extractLsb' 0 8))).map _ = _
  rw [wordOfBytes_bytesOfWord]
  rfl

/-- What `decodeTableWord` answers for a 16-bit row. -/
theorem decodeTableWord_eq (w : Word) (i : Instr) (h : decodeWord w = .ok i) : decodeTableWord 16 w.toNat = some i := by
  have hw : BitVec.ofNat 16 (w.toNat % 2 ^ 16) = w := by
    apply BitVec.eq_of_toNat_eq
    have := w.isLt
    simp only [BitVec.toNat_ofNat]; omega
  have := decode_bytesOfWord w []
  rw [List.append_nil, h] at this
  rw [decodeTableWord, hw, this]
  rfl

end Sys2Proof
end

