-- ==== Sys2Proof/Laws/Memory.lean ====
section
/-! SUPPORT. The laws of memory: a read after a write, in the same place and elsewhere; every operation keeps the
canonical form; two memories in canonical form that read alike are equal. -/

namespace Sys2Proof.Machine

/-! ### Reading -/

@[simp] theorem readByte_nil (a : Nat) : readByte [] a = resetByte a := rfl

theorem readByte_cons (k : Nat) (v : Byte) (m : Memory) (a : Nat) :
    readByte ((k, v) :: m) a = if a = k then v else readByte m a := rfl

theorem readByte_eq_resetByte {m : Memory} {a : Nat} (h : ∀ c ∈ m, c.1 ≠ a) : readByte m a = resetByte a := by
  induction m with
  | nil => rfl
  | cons c m ih =>
    obtain ⟨k, v⟩ := c
    have hk : a ≠ k := fun e => h (k, v) (by simp) e.symm
    rw [readByte_cons, if_neg hk]
    exact ih (fun c hc => h c (List.mem_cons_of_mem _ hc))

theorem readByte_eraseByte_same (m : Memory) (a : Nat) : readByte (eraseByte m a) a = resetByte a := by
  apply readByte_eq_resetByte
  intro c hc
  simpa [eraseByte] using (List.mem_filter.mp hc).2

theorem readByte_eraseByte_other (m : Memory) {a c : Nat} (h : c ≠ a) :
    readByte (eraseByte m a) c = readByte m c := by
  induction m with
  | nil => rfl
  | cons d m ih =>
    obtain ⟨k, v⟩ := d
    by_cases hk : k = a
    · subst hk
      simpa [eraseByte, readByte_cons, h] using ih
    · have : eraseByte ((k, v) :: m) a = (k, v) :: eraseByte m a := by simp [eraseByte, hk]
      rw [this, readByte_cons, readByte_cons, ih]

theorem readByte_insertCell_same {m : Memory} {a : Nat} (b : Byte) (h : ∀ c ∈ m, c.1 ≠ a) :
    readByte (insertCell m a b) a = b := by
  induction m with
  | nil => simp [insertCell, readByte_cons]
  | cons d m ih =>
    obtain ⟨k, v⟩ := d
    have hk : a ≠ k := fun e => h (k, v) (by simp) e.symm
    unfold insertCell
    split
    · simp [readByte_cons]
    · rw [readByte_cons, if_neg hk]
      exact ih (fun c hc => h c (List.mem_cons_of_mem _ hc))

theorem readByte_insertCell_other (m : Memory) {a c : Nat} (b : Byte) (h : c ≠ a) :
    readByte (insertCell m a b) c = readByte m c := by
  induction m with
  | nil => simp [insertCell, readByte_cons, h]
  | cons d m ih =>
    obtain ⟨k, v⟩ := d
    unfold insertCell
    split
    · simp [readByte_cons, h]
    · rw [readByte_cons, readByte_cons, ih]

theorem eraseByte_ne (m : Memory) (a : Nat) : ∀ c ∈ eraseByte m a, c.1 ≠ a := by
  intro c hc
  simpa [eraseByte] using (List.mem_filter.mp hc).2

/-- A read after a write to the same address gives the byte written. -/
@[simp] theorem readByte_writeByte_same (m : Memory) (a : Nat) (b : Byte) : readByte (writeByte m a b) a = b := by
  unfold writeByte
  split
  · rename_i h; rw [readByte_eraseByte_same, h]
  · exact readByte_insertCell_same b (eraseByte_ne m a)

/-- A write leaves every other address alone. -/
theorem readByte_writeByte_other (m : Memory) {a c : Nat} (b : Byte) (h : c ≠ a) :
    readByte (writeByte m a b) c = readByte m c := by
  unfold writeByte
  split
  · exact readByte_eraseByte_other m h
  · rw [readByte_insertCell_other _ _ h, readByte_eraseByte_other m h]

/-- Writing a sequence of bytes leaves every address outside it alone. -/
theorem readByte_writeBytes_outside (bs : List Byte) : ∀ (m : Memory) (a c : Nat), c < a ∨ a + bs.length ≤ c →
    readByte (writeBytes m a bs) c = readByte m c := by
  induction bs with
  | nil => intros; rfl
  | cons b bs ih =>
    intro m a c h
    simp only [List.length_cons] at h
    rw [writeBytes, ih _ _ _ (by omega), readByte_writeByte_other _ _ (by omega)]

/-- The `j`-th byte of a written sequence is read back at its address. -/
theorem readByte_writeBytes_inside (bs : List Byte) : ∀ (m : Memory) (a j : Nat), (h : j < bs.length) →
    readByte (writeBytes m a bs) (a + j) = bs[j] := by
  induction bs with
  | nil => intro m a j h; simp at h
  | cons b bs ih =>
    intro m a j h
    cases j with
    | zero =>
      rw [writeBytes, Nat.add_zero, readByte_writeBytes_outside bs _ _ _ (by omega)]
      simp
    | succ j =>
      have h' : j < bs.length := by simpa using h
      rw [writeBytes, show a + (j + 1) = (a + 1) + j by omega, ih _ _ _ h']
      simp

/-! ### The canonical form -/

theorem eraseByte_wf {m : Memory} (a : Nat) (h : m.wf) : Memory.wf (eraseByte m a) :=
  ⟨h.1.filter _, fun c hc => h.2 c (List.mem_of_mem_filter hc)⟩

theorem mem_insertCell {m : Memory} {a : Nat} {b : Byte} {c : Host.Cell} :
    c ∈ insertCell m a b ↔ c = (a, b) ∨ c ∈ m := by
  induction m with
  | nil => simp [insertCell]
  | cons d m ih =>
    obtain ⟨k, v⟩ := d
    unfold insertCell
    split
    · simp
    · simp only [List.mem_cons, ih]; tauto

theorem insertCell_pairwise {m : Memory} {a : Nat} (b : Byte) (h : m.Pairwise (fun c d => c.1 < d.1))
    (ha : ∀ c ∈ m, c.1 ≠ a) : (insertCell m a b).Pairwise (fun c d => c.1 < d.1) := by
  induction m with
  | nil => simp [insertCell]
  | cons d m ih =>
    obtain ⟨k, v⟩ := d
    have hk : k ≠ a := ha (k, v) (by simp)
    obtain ⟨h1, h2⟩ := List.pairwise_cons.mp h
    unfold insertCell
    split
    · rename_i hlt
      refine List.pairwise_cons.mpr ⟨?_, h⟩
      intro c hc
      rcases List.mem_cons.mp hc with rfl | hc
      · exact hlt
      · exact Nat.lt_trans hlt (h1 c hc)
    · rename_i hge
      refine List.pairwise_cons.mpr ⟨?_, ih h2 (fun c hc => ha c (List.mem_cons_of_mem _ hc))⟩
      intro c hc
      rcases mem_insertCell.mp hc with rfl | hc
      · show k < a; omega
      · exact h1 c hc

/-- A write inside the address space keeps the canonical form. -/
theorem writeByte_wf {m : Memory} {a : Nat} (b : Byte) (h : m.wf) (ha : a < Config.memSize) :
    Memory.wf (writeByte m a b) := by
  unfold writeByte
  split
  · exact eraseByte_wf a h
  · rename_i hb
    have he := eraseByte_wf a h
    refine ⟨insertCell_pairwise b he.1 (eraseByte_ne m a), ?_⟩
    intro c hc
    rcases mem_insertCell.mp hc with rfl | hc
    · exact ⟨ha, hb⟩
    · exact he.2 c hc

/-- Writing a sequence of bytes inside the address space keeps the canonical form. -/
theorem writeBytes_wf (bs : List Byte) : ∀ (m : Memory) (a : Nat), m.wf → a + bs.length ≤ Config.memSize →
    Memory.wf (writeBytes m a bs) := by
  induction bs with
  | nil => intro m a h _; exact h
  | cons b bs ih =>
    intro m a h ha
    simp only [List.length_cons] at ha
    exact ih _ _ (writeByte_wf b h (by omega)) (by omega)

theorem reset_mem_wf : Memory.wf State.reset.guest.mem := by decide

theorem readByte_cons_ne_reset {k : Nat} {v : Byte} {m : Memory} (h : Memory.wf ((k, v) :: m)) :
    readByte ((k, v) :: m) k ≠ resetByte k := by
  simpa [readByte_cons] using (h.2 (k, v) (by simp)).2

theorem wf_tail {c : Host.Cell} {m : Memory} (h : Memory.wf (c :: m)) : Memory.wf m :=
  ⟨(List.pairwise_cons.mp h.1).2, fun d hd => h.2 d (List.mem_cons_of_mem _ hd)⟩

theorem readByte_eq_resetByte_of_lt_head {k : Nat} {v : Byte} {m : Memory} {a : Nat} (h : Memory.wf ((k, v) :: m))
    (ha : a < k) : readByte ((k, v) :: m) a = resetByte a := by
  apply readByte_eq_resetByte
  intro c hc
  rcases List.mem_cons.mp hc with rfl | hc
  · show k ≠ a; omega
  · have := (List.pairwise_cons.mp h.1).1 c hc
    simp only at this
    omega

/-- Equal memories are equal data: two memories in canonical form that read alike everywhere are the same list. -/
theorem Memory.wf_ext : ∀ {m n : Memory}, m.wf → n.wf → (∀ a, readByte m a = readByte n a) → m = n := by
  intro m
  induction m with
  | nil =>
    intro n _ hn h
    cases n with
    | nil => rfl
    | cons d n =>
      obtain ⟨k, v⟩ := d
      exact absurd (h k).symm (readByte_cons_ne_reset hn)
  | cons c m ih =>
    intro n hm hn h
    obtain ⟨k, v⟩ := c
    cases n with
    | nil => exact absurd (h k) (readByte_cons_ne_reset hm)
    | cons d n =>
      obtain ⟨l, w⟩ := d
      have hkl : k = l := by
        rcases Nat.lt_trichotomy k l with hlt | heq | hgt
        · exact absurd ((h k).trans (readByte_eq_resetByte_of_lt_head hn hlt)) (readByte_cons_ne_reset hm)
        · exact heq
        · exact absurd ((h l).symm.trans (readByte_eq_resetByte_of_lt_head hm hgt)) (readByte_cons_ne_reset hn)
      subst hkl
      have hv : v = w := by simpa [readByte_cons] using h k
      subst hv
      congr 1
      apply ih (wf_tail hm) (wf_tail hn)
      intro a
      by_cases ha : a = k
      · subst ha
        have e1 : readByte m a = resetByte a := readByte_eq_resetByte (fun c hc => by
          have := (List.pairwise_cons.mp hm.1).1 c hc; simp only at this; omega)
        have e2 : readByte n a = resetByte a := readByte_eq_resetByte (fun c hc => by
          have := (List.pairwise_cons.mp hn.1).1 c hc; simp only at this; omega)
        rw [e1, e2]
      · simpa [readByte_cons, ha] using h a

end Sys2Proof.Machine
end

