-- ==== Sys2Proof/Laws/Ops.lean ====
section
/-! SUPPORT. One lemma per shared operation that says once everything it can do: the ends of an instruction, storing through
`I`, the engine step, the breakpoint check, the orchestrator step. Proofs cite these and unfold none of them. -/

namespace Sys2Proof.Machine

/-! ### The ends of an instruction -/

theorem succeed_eq (s : State) (g : Guest) :
    succeed s g = .next { s with guest := { g with pc := s.guest.pc + 2 }, outcome := .success } := rfl

theorem succeedAt_eq (s : State) (g : Guest) (a : Word) :
    succeedAt s g a = .next { s with guest := { g with pc := a }, outcome := .success } := rfl

theorem succeedSkip_eq (s : State) (b : Bool) :
    succeedSkip s b =
      .next { s with
        guest := { s.guest with pc := if b then s.guest.pc + 4 else s.guest.pc + 2 }, outcome := .success } := rfl

/-- A fault raised before any write changes nothing but the outcome. -/
theorem raise_eq (s : State) (f : Fault) : raise s f = .next { s with outcome := .fault f } := rfl

theorem raiseAfter_eq (s : State) (g : Guest) (f : Fault) :
    raiseAfter s g f = .next { s with guest := { g with pc := s.guest.pc }, outcome := .fault f } := rfl

/-! ### Storing through `I` -/

theorem storeAtI_fault {s : State} {bs : List Byte} {n : Nat} (h : s.guest.effectiveAddress n > 4095) :
    storeAtI s bs n = .next { s with outcome := .fault .invalidMemoryLocation } := by
  rw [storeAtI, if_pos (by simpa [outOfMemory, Config.memTop] using h)]
  rfl

theorem storeAtI_ok {s : State} {bs : List Byte} {n : Nat} (h : s.guest.effectiveAddress n ≤ 4095) :
    storeAtI s bs n =
      .next { s with
        guest   := { s.guest with mem := writeBytes s.guest.mem (s.guest.effectiveAddress 0) bs, pc := s.guest.pc + 2 }
        outcome := .success } := by
  rw [storeAtI, if_neg (by simpa [outOfMemory, Config.memTop] using h)]
  rfl

/-- Everything `storeAtI` can do. -/
theorem storeAtI_cases {s t : State} {bs : List Byte} {n : Nat} (h : storeAtI s bs n = .next t) :
    (s.guest.effectiveAddress n > 4095 ∧ t = { s with outcome := .fault .invalidMemoryLocation }) ∨
    (s.guest.effectiveAddress n ≤ 4095 ∧
      t = { s with
        guest   := { s.guest with mem := writeBytes s.guest.mem (s.guest.effectiveAddress 0) bs, pc := s.guest.pc + 2 }
        outcome := .success }) := by
  by_cases hb : s.guest.effectiveAddress n > 4095
  · rw [storeAtI_fault hb] at h; cases h; exact .inl ⟨hb, rfl⟩
  · rw [storeAtI_ok (by omega)] at h; cases h; exact .inr ⟨by omega, rfl⟩

/-! ### The engine step -/

theorem engineStep_halted {s : State} (h : s.guest.halted = true) :
    engineStep s = .next { s with outcome := .haltedOnKeyPress } := by
  simp [engineStep, h]

theorem engineStep_fetchOut {s : State} (h : s.guest.halted = false) (hp : s.guest.pc.toNat > 4094) :
    engineStep s = .next { s with outcome := .fault .fetchOutOfRange } := by
  have : s.guest.fetchOut = true := by simpa [Guest.fetchOut, Config.pcMax] using hp
  simp [engineStep, h, this, raise_eq]

theorem engineStep_execute {s : State} (h : s.guest.halted = false) (hp : s.guest.pc.toNat ≤ 4094) :
    engineStep s = executeWord s.guest.fetch s := by
  have : s.guest.fetchOut = false := by simpa [Guest.fetchOut, Config.pcMax] using hp
  simp [engineStep, h, this]

theorem executeWord_ok {w : Word} {i : Instr} (h : decodeWord w = .ok i) (s : State) : executeWord w s = exec i s := by
  simp [executeWord, h]

theorem executeWord_error {w : Word} {e : Reject} (h : decodeWord w = .error e) (s : State) :
    executeWord w s = .next { s with outcome := .fault .invalidInstruction } := by
  simp [executeWord, h, raise_eq]

/-- Everything the engine step can do: report the wait, report the fetch fault, raise `InvalidInstruction`, or run the
decoded instruction. -/
theorem engineStep_cases (s : State) :
    (s.guest.halted = true ∧ engineStep s = .next { s with outcome := .haltedOnKeyPress }) ∨
    (s.guest.halted = false ∧ s.guest.pc.toNat > 4094 ∧
      engineStep s = .next { s with outcome := .fault .fetchOutOfRange }) ∨
    (s.guest.halted = false ∧ s.guest.pc.toNat ≤ 4094 ∧
      engineStep s = .next { s with outcome := .fault .invalidInstruction }) ∨
    (s.guest.halted = false ∧ s.guest.pc.toNat ≤ 4094 ∧
      ∃ i, decodeWord s.guest.fetch = .ok i ∧ engineStep s = exec i s) := by
  cases h : s.guest.halted with
  | true => exact .inl ⟨rfl, engineStep_halted h⟩
  | false =>
    by_cases hp : s.guest.pc.toNat > 4094
    · exact .inr (.inl ⟨rfl, hp, engineStep_fetchOut h hp⟩)
    · have hp : s.guest.pc.toNat ≤ 4094 := by omega
      cases hd : decodeWord s.guest.fetch with
      | error e => exact .inr (.inr (.inl ⟨rfl, hp, (engineStep_execute h hp).trans (executeWord_error hd s)⟩))
      | ok i => exact .inr (.inr (.inr ⟨rfl, hp, i, rfl, (engineStep_execute h hp).trans (executeWord_ok hd s)⟩))

/-! ### The breakpoint check -/

theorem takeBreakpoint_none_iff (pc : Word) (l : List Breakpoint) :
    takeBreakpoint pc l = none ↔ ∀ b ∈ l, b.addr ≠ pc := by
  induction l with
  | nil => simp [takeBreakpoint]
  | cons e es ih =>
    rw [takeBreakpoint]
    split
    · rename_i h
      constructor
      · intro h'; split at h' <;> cases h'
      · intro h'; exact absurd h (h' e (by simp))
    · rename_i h
      simp [ih, h]

theorem takeBreakpoint_hit {pc : Word} (older newer : List Breakpoint) (e : Breakpoint)
    (h : ∀ b ∈ older, b.addr ≠ pc) (he : e.addr = pc) :
    takeBreakpoint pc (older ++ e :: newer) =
      some (match e.disposition with
        | .clearAfterTrigger => older ++ newer
        | .preserve => older ++ e :: newer) := by
  induction older with
  | nil => simp only [List.nil_append, takeBreakpoint, he, if_true]; cases e.disposition <;> rfl
  | cons b bs ih =>
    have hb : b.addr ≠ pc := h b (by simp)
    simp only [List.cons_append, takeBreakpoint, hb, if_false, ih (fun c hc => h c (by simp [hc]))]
    cases e.disposition <;> rfl

/-- A check never makes the store longer. -/
theorem takeBreakpoint_length {pc : Word} {l l' : List Breakpoint} (h : takeBreakpoint pc l = some l') :
    l'.length ≤ l.length := by
  induction l generalizing l' with
  | nil => simp [takeBreakpoint] at h
  | cons e es ih =>
    rw [takeBreakpoint] at h
    split at h
    · split at h <;> cases h <;> simp
    · cases hr : takeBreakpoint pc es with
      | none => rw [hr] at h; cases h
      | some r => rw [hr] at h; cases h; simpa using ih hr

/-! ### The orchestrator step -/

theorem runPhases_next {s t : State} (h : engineStep (timerPhase s) = .next t) : runPhases s = .next (framePhase t) := by
  simp [runPhases, h]

/-- Everything the orchestrator step can do when it answers a next state: stop at a breakpoint, or run its phases. -/
theorem orchStep_cases {s t : State} (h : orchStep s = .next t) :
    (∃ bps, takeBreakpoint s.guest.pc s.orch.bps = some bps ∧
      t = { s with orch := { s.orch with bps := bps }, outcome := .breakpointReached }) ∨
    (takeBreakpoint s.guest.pc s.orch.bps = none ∧
      ∃ u, engineStep (timerPhase s) = .next u ∧ t = framePhase u) := by
  unfold orchStep at h
  split at h
  · rename_i bps hb; cases h; exact .inl ⟨bps, hb, rfl⟩
  · rename_i hb
    refine .inr ⟨hb, ?_⟩
    unfold runPhases at h
    split at h
    · rename_i u hu; cases h; exact ⟨u, hu, rfl⟩
    · cases h
    · cases h

/-! ### Timers -/

theorem countDown_toNat (t : Byte) : (countDown t).toNat = t.toNat - 1 := by
  unfold countDown
  split
  · rename_i h
    have := t.isLt
    rw [BitVec.toNat_sub, show (1 : Byte).toNat = 1 from rfl]
    omega
  · omega

theorem toneStarts_iff (s : State) : s.toneStarts = true ↔ s.guest.ST.toNat > 0 ∧ s.orch.emittingTone = false := by
  simp [State.toneStarts]

/-- The tone flag after a tick does not depend on the flag before it: a tick that leaves `ST` nonzero sets it. -/
theorem tick_emittingTone (s : State) : (tick s).orch.emittingTone = decide (s.guest.ST.toNat - 1 > 0) := by
  simp only [tick, State.toneStarts, countDown_toNat]
  cases s.orch.emittingTone <;> simp
  omega

/-- The events of a step's timer phase: the request of a tone that its tick starts, and nothing else. -/
theorem timerPhase_events_eq (s : State) :
    (timerPhase s).events =
      s.events ++
        (if s.orch.timerStepCounter + 1 ≥ s.orch.timerDivisor ∧ s.toneStarts = true
         then [.toneRequest (toneDurationMs s.guest.ST)] else []) := by
  unfold timerPhase
  split <;> rename_i h
  · simp [tick, State.toneStarts, h]
  · simp [h]

/-- The frame phase appends a screen update, or nothing. -/
theorem framePhase_events_eq (s : State) :
    (framePhase s).events =
      s.events ++
        (if s.orch.frameStepCounter + 1 ≥ s.orch.stepsPerFrame then [.screenUpdate s.guest.fb] else []) := by
  unfold framePhase
  split <;> simp

end Sys2Proof.Machine
end

