-- ==== Sys2Proof/Laws/Commands.lean ====
section
/-! SUPPORT. What the host commands' shared operations can do, and the two ends of a drawing instruction. -/

namespace Sys2Proof.Machine

/-! ### Drawing -/

/-- Everything `DRW` can do: draw its rows, write `VF`, and end with `Success` or with its fault. -/
theorem execDrw_cases {x y : Reg} {n : Nat} {s t : State} (h : exec (.drw x y n) s = .next t) :
    let r := drawRows s.guest.mem s.guest.I.toNat (s.guest.getV x) (s.guest.getV y) n 0 ⟨s.guest.fb, false⟩
    (r.2 = true ∧
      t = { s with
        guest   := { s.guest.setV 15 (flagByte r.1.collided) with fb := r.1.fb, pc := s.guest.pc + 2 }
        outcome := .success }) ∨
    (r.2 = false ∧
      t = { s with
        guest   := { s.guest.setV 15 (flagByte r.1.collided) with fb := r.1.fb, pc := s.guest.pc }
        outcome := .fault .invalidSpriteLocation }) := by
  intro r
  simp only [exec, execDrw] at h
  split at h
  · rename_i hr; cases h; exact .inl ⟨hr, rfl⟩
  · rename_i hr; cases h; exact .inr ⟨by simpa using hr, rfl⟩

/-! ### Replies -/

/-- A stepping command answers the state of its last step, with that step's outcome. -/
theorem withOutcome_next {r : Result} {t : State} {q : Reply} (h : withOutcome r = .next (t, q)) :
    r = .next t ∧ q = .outcome t.outcome := by
  cases r with
  | next u    => cases h; exact ⟨rfl, rfl⟩
  | fault f   => cases h
  | refused f => cases h

/-! ### The breakpoint store -/

/-- Everything `plantOneShot` can do. -/
theorem plantOneShot_eq (a : Word) (s : State) :
    (storeFull s.orch.bps = true ∧ plantOneShot a s = .refused .breakpointStoreFull) ∨
    (storeFull s.orch.bps = false ∧
      plantOneShot a s = .next (s.appendBreakpoint a .clearAfterTrigger, .outcome .success)) := by
  unfold plantOneShot
  cases h : storeFull s.orch.bps with
  | true  => exact .inl ⟨rfl, rfl⟩
  | false => exact .inr ⟨rfl, rfl⟩

/-- A store that is not full still fits with one entry more. -/
theorem storeFits_append {bps : List Breakpoint} (b : Breakpoint) (h : StoreFits bps) (hf : storeFull bps = false) :
    StoreFits (bps ++ [b]) := by
  intro n hn
  have hle := h n hn
  rw [storeFull, hn] at hf
  simp only [ge_iff_le, decide_eq_false_iff_not] at hf
  simp only [List.length_append, List.length_singleton]
  omega

theorem storeFits_of_length_le {l l' : List Breakpoint} (h : StoreFits l) (hl : l'.length ≤ l.length) : StoreFits l' :=
  fun n hn => Nat.le_trans hl (h n hn)

/-! ### Key notifications (47_orchestrator.md R115) -/

theorem setKeyState_next {k : Nat} (h : k ≤ 15) (pressed : Bool) (s : State) :
    setKeyState k pressed s =
      .next ({ s with guest := s.guest.notifyKey ⟨k, Nat.lt_succ_of_le h⟩ pressed }, .done) :=
  dif_pos (Nat.lt_succ_of_le h)

/-- A press that finds a key wait ends it. -/
theorem notifyKey_wakes {g : Guest} (k : Fin 16) (h : g.halted = true) :
    g.notifyKey k true =
      { { g with key := g.key.set k true }.setV g.kpr (BitVec.ofNat 8 k.val) with halted := false } := by
  simp [Guest.notifyKey, h]

/-- A release, or a press that finds no key wait, is noted in the keypad alone. -/
theorem notifyKey_notes {g : Guest} (k : Fin 16) {pressed : Bool} (h : pressed = false ∨ g.halted = false) :
    g.notifyKey k pressed = { g with key := g.key.set k pressed } := by
  rcases h with h | h <;> simp [Guest.notifyKey, h]

/-! ### Calls (47_orchestrator.md R112) -/

theorem isCall_iff (w : Word) : isCall w = true ↔ w.toNat / 4096 = 2 := by
  simp only [isCall, decide_eq_true_eq]
  rw [← BitVec.toNat_inj, group_toNat]
  rfl

theorem callTarget_eq (w : Word) : callTarget w = BitVec.ofNat 16 (w.toNat % 4096) := by
  apply BitVec.eq_of_toNat_eq
  rw [callTarget, addrOf_toNat, BitVec.toNat_ofNat]
  omega

/-- The scan passes over a word that is no call. -/
theorem nextCall_skip {m : Memory} {n a : Nat} (h : a ≤ 4094) (hw : (readWord m a).toNat / 4096 ≠ 2) :
    nextCall m (n + 1) a = nextCall m n (a + 2) := by
  rw [nextCall, if_neg (by simp only [Config.pcMax]; omega), if_neg (by rwa [isCall_iff])]

/-- The scan stops at a word that is one. -/
theorem nextCall_found {m : Memory} {n a : Nat} (h : a ≤ 4094) (hw : (readWord m a).toNat / 4096 = 2) :
    nextCall m (n + 1) a = some (BitVec.ofNat 16 ((readWord m a).toNat % 4096)) := by
  rw [nextCall, if_neg (by simp only [Config.pcMax]; omega), if_pos (by rwa [isCall_iff]), callTarget_eq]

/-- The scan ends above 4094. -/
theorem nextCall_beyond {m : Memory} {n a : Nat} (h : 4094 < a) : nextCall m n a = none := by
  cases n with
  | zero   => rfl
  | succ n => rw [nextCall, if_pos (by simp only [Config.pcMax]; omega)]

/-! ### Frames -/

/-- A frame's next step, when that step succeeds. -/
theorem runSteps_success {n : Nat} {s t : State} (h : orchStep s = .next t) (ht : t.outcome = .success) :
    runSteps (n + 1) s = runSteps n t := by
  rw [runSteps, h]; simp only [ht, if_true]

/-- A frame stops at a step with another outcome. -/
theorem runSteps_stop {n : Nat} {s t : State} (h : orchStep s = .next t) (ht : t.outcome ≠ .success) :
    runSteps (n + 1) s = .next t := by
  rw [runSteps, h]; simp only [ht, if_false]

/-! ### Timing (47_orchestrator.md R99) -/

theorem timerDivisorOf_pos (n : Nat) : 1 ≤ timerDivisorOf n := by
  unfold timerDivisorOf; omega

/-- Rounding to the nearest integer, an exact half upwards: the quotient is off by at most half a divisor. -/
theorem roundDiv_bounds (n : Nat) {d : Nat} (hd : 0 < d) :
    2 * d * roundDiv n d ≤ 2 * n + d ∧ 2 * n + d < 2 * d * (roundDiv n d + 1) := by
  have hpos : 0 < 2 * d := by omega
  unfold roundDiv
  exact ⟨Nat.mul_div_le _ _, Nat.lt_mul_div_succ _ hpos⟩

end Sys2Proof.Machine
end

