-- ==== Sys2Proof/Laws/PerInstr.lean ====
section
/-! SUPPORT. One statement about every instruction as syntax, a lemma a constructor: its row of Table R45 is well made. -/

namespace Sys2Proof.Laws.RowWellMade

/-- The instruction's row stands in Table R45, its pattern lies under its mask, and its ignored bits (30_encoding.md R49) lie
outside the mask. -/
def Statement (i : Instr) : Prop :=
  i.row ∈ opcodeTable ∧ i.row.pattern &&& i.row.mask = i.row.pattern ∧ i.row.mask &&& i.ignoredBits = 0

/-- The two facts about bits, on the sample of every row. -/
theorem samples_bits : ∀ j ∈ rowSamples,
    j.row.pattern &&& j.row.mask = j.row.pattern ∧ j.row.mask &&& j.ignoredBits = 0 := by decide

/-- An instruction shares its row and its ignored bits with the sample of that row. -/
theorem of_sample {i j : Instr} (hj : j ∈ rowSamples) (hr : j.row = i.row) (hb : j.ignoredBits = i.ignoredBits) :
    Statement i := by
  have h := samples_bits j hj
  rw [hr, hb] at h
  exact ⟨List.mem_map.mpr ⟨j, hj, hr⟩, h⟩

theorem cls : Statement (.cls) := of_sample (j := .cls) (by decide) rfl rfl

theorem ret : Statement (.ret) := of_sample (j := .ret) (by decide) rfl rfl

theorem jp (addr : Word) : Statement (.jp addr) := of_sample (j := .jp 0) (by decide) rfl rfl

theorem call (addr : Word) : Statement (.call addr) := of_sample (j := .call 0) (by decide) rfl rfl

theorem seImm (x : Reg) (byte : Byte) : Statement (.seImm x byte) := of_sample (j := .seImm 0 0) (by decide) rfl rfl

theorem sneImm (x : Reg) (byte : Byte) : Statement (.sneImm x byte) := of_sample (j := .sneImm 0 0) (by decide) rfl rfl

theorem seReg (x : Reg) (y : Reg) : Statement (.seReg x y) := of_sample (j := .seReg 0 0) (by decide) rfl rfl

theorem ldImm (x : Reg) (byte : Byte) : Statement (.ldImm x byte) := of_sample (j := .ldImm 0 0) (by decide) rfl rfl

theorem addImm (x : Reg) (byte : Byte) : Statement (.addImm x byte) := of_sample (j := .addImm 0 0) (by decide) rfl rfl

theorem ldReg (x : Reg) (y : Reg) : Statement (.ldReg x y) := of_sample (j := .ldReg 0 0) (by decide) rfl rfl

theorem orReg (x : Reg) (y : Reg) : Statement (.orReg x y) := of_sample (j := .orReg 0 0) (by decide) rfl rfl

theorem andReg (x : Reg) (y : Reg) : Statement (.andReg x y) := of_sample (j := .andReg 0 0) (by decide) rfl rfl

theorem xorReg (x : Reg) (y : Reg) : Statement (.xorReg x y) := of_sample (j := .xorReg 0 0) (by decide) rfl rfl

theorem addReg (x : Reg) (y : Reg) : Statement (.addReg x y) := of_sample (j := .addReg 0 0) (by decide) rfl rfl

theorem subReg (x : Reg) (y : Reg) : Statement (.subReg x y) := of_sample (j := .subReg 0 0) (by decide) rfl rfl

theorem shr (x : Reg) : Statement (.shr x) := of_sample (j := .shr 0) (by decide) rfl rfl

theorem subnReg (x : Reg) (y : Reg) : Statement (.subnReg x y) := of_sample (j := .subnReg 0 0) (by decide) rfl rfl

theorem shl (x : Reg) : Statement (.shl x) := of_sample (j := .shl 0) (by decide) rfl rfl

theorem sneReg (x : Reg) (y : Reg) : Statement (.sneReg x y) := of_sample (j := .sneReg 0 0) (by decide) rfl rfl

theorem ldI (addr : Word) : Statement (.ldI addr) := of_sample (j := .ldI 0) (by decide) rfl rfl

theorem jpV0 (addr : Word) : Statement (.jpV0 addr) := of_sample (j := .jpV0 0) (by decide) rfl rfl

theorem rnd (x : Reg) (byte : Byte) : Statement (.rnd x byte) := of_sample (j := .rnd 0 0) (by decide) rfl rfl

theorem drw (x : Reg) (y : Reg) (nibble : Nat) : Statement (.drw x y nibble) := of_sample (j := .drw 0 0 0) (by decide) rfl rfl

theorem skp (x : Reg) : Statement (.skp x) := of_sample (j := .skp 0) (by decide) rfl rfl

theorem sknp (x : Reg) : Statement (.sknp x) := of_sample (j := .sknp 0) (by decide) rfl rfl

theorem ldVxDT (x : Reg) : Statement (.ldVxDT x) := of_sample (j := .ldVxDT 0) (by decide) rfl rfl

theorem ldVxK (x : Reg) : Statement (.ldVxK x) := of_sample (j := .ldVxK 0) (by decide) rfl rfl

theorem ldDTVx (x : Reg) : Statement (.ldDTVx x) := of_sample (j := .ldDTVx 0) (by decide) rfl rfl

theorem ldSTVx (x : Reg) : Statement (.ldSTVx x) := of_sample (j := .ldSTVx 0) (by decide) rfl rfl

theorem addI (x : Reg) : Statement (.addI x) := of_sample (j := .addI 0) (by decide) rfl rfl

theorem ldF (x : Reg) : Statement (.ldF x) := of_sample (j := .ldF 0) (by decide) rfl rfl

theorem ldB (x : Reg) : Statement (.ldB x) := of_sample (j := .ldB 0) (by decide) rfl rfl

theorem storeRegs (x : Reg) : Statement (.storeRegs x) := of_sample (j := .storeRegs 0) (by decide) rfl rfl

theorem loadRegs (x : Reg) : Statement (.loadRegs x) := of_sample (j := .loadRegs 0) (by decide) rfl rfl

end Sys2Proof.Laws.RowWellMade
end

