-- ==== Sys2Proof/Tests/Slice0.lean ====
section
/-! SUPPORT. Tests. Expected values come from the tables of the spec: words are written out from 30_encoding.md Table R45, and
the vectors T<n>, E<n> are those of 95_test_vectors.md. The last part shows, for every statement that has hypotheses,
a concrete state and operands that meet them. -/

namespace Sys2Proof.Tests

open Sys2Proof Sys2Proof.Machine

/-! ### Helpers -/

/-- The reset state with one word at `0x200` and the guest then changed by `f` (95_test_vectors.md, conventions). -/
def boot (w : Word) (f : Guest → Guest) : State :=
  { State.reset.placeWord w with guest := f (State.reset.placeWord w).guest }

/-- The state one engine step leaves meets `p`. -/
def after (w : Word) (f : Guest → Guest) (p : State → Bool) : Bool :=
  match engineStep (boot w f) with
  | .next t    => p t
  | .fault _   => false
  | .refused _ => false

/-- The framebuffer with exactly the listed cells on. -/
def lit (cells : List (Nat × Nat)) : Framebuffer :=
  cells.foldl (fun fb c => fb.toggle c.1 c.2) Framebuffer.blank

/-- The state after `n` commands `step`. -/
def stepsFrom : Nat → State → State
  | 0, s     => s
  | n + 1, s =>
    match step s with
    | .next t    => stepsFrom n t
    | .fault _   => s
    | .refused _ => s

/-- The state a command leaves and its reply meet `p`. -/
def afterCommand (c : Command) (s : State) (p : State → Reply → Bool) : Bool :=
  match runCommand c s with
  | .next (t, r) => p t r
  | .fault _     => false
  | .refused _   => false

/-! ### Well-formedness refuses ill-formed terms (30_encoding.md R43) -/

theorem test_wf_refuses_jp_address_beyond_12_bits : (Instr.jp 0x1000).wf = false := by decide
theorem test_wf_refuses_call_address_beyond_12_bits : (Instr.call 0x1000).wf = false := by decide
theorem test_wf_refuses_ldI_address_beyond_12_bits : (Instr.ldI 0xFFFF).wf = false := by decide
theorem test_wf_refuses_jpV0_address_beyond_12_bits : (Instr.jpV0 0x1000).wf = false := by decide
theorem test_wf_refuses_drw_nibble_beyond_4_bits : (Instr.drw 0 0 16).wf = false := by decide
theorem test_wf_refuses_key_16 : (Command.setKeyState 16 true).wf = false := by decide
theorem test_wf_admits_the_greatest_operands :
    (Instr.jp 0x0FFF).wf = true ∧ (Instr.drw 15 15 15).wf = true ∧ (Command.setKeyState 15 true).wf = true := by decide

/-! ### Decoding: words written out from Table R45, the opcode digits as printed and the operand digits filled in -/

theorem test_decode_cls : decodeWord 0x00E0 = .ok .cls := by decide
theorem test_decode_cls_ignores_x : decodeWord 0x0AE0 = .ok .cls := by decide
theorem test_decode_ret : decodeWord 0x00EE = .ok .ret := by decide
theorem test_decode_jp : decodeWord 0x1ABC = .ok (.jp 0xABC) := by decide
theorem test_decode_call : decodeWord 0x2F01 = .ok (.call 0xF01) := by decide
theorem test_decode_seImm : decodeWord 0x3A42 = .ok (.seImm 0xA 0x42) := by decide
theorem test_decode_sneImm : decodeWord 0x432A = .ok (.sneImm 3 0x2A) := by decide
theorem test_decode_seReg_ignores_nibble : decodeWord 0x5121 = .ok (.seReg 1 2) := by decide
theorem test_decode_ldImm : decodeWord 0x6C7F = .ok (.ldImm 0xC 0x7F) := by decide
theorem test_decode_addImm : decodeWord 0x7F10 = .ok (.addImm 0xF 0x10) := by decide
theorem test_decode_ldReg : decodeWord 0x8120 = .ok (.ldReg 1 2) := by decide
theorem test_decode_orReg : decodeWord 0x8121 = .ok (.orReg 1 2) := by decide
theorem test_decode_andReg : decodeWord 0x8122 = .ok (.andReg 1 2) := by decide
theorem test_decode_xorReg : decodeWord 0x8123 = .ok (.xorReg 1 2) := by decide
theorem test_decode_addReg : decodeWord 0x8F14 = .ok (.addReg 0xF 1) := by decide
theorem test_decode_subReg : decodeWord 0x8015 = .ok (.subReg 0 1) := by decide
theorem test_decode_shr_ignores_y : decodeWord 0x8126 = .ok (.shr 1) := by decide
theorem test_decode_subnReg : decodeWord 0x8AB7 = .ok (.subnReg 0xA 0xB) := by decide
theorem test_decode_shl_ignores_y : decodeWord 0x81FE = .ok (.shl 1) := by decide
theorem test_decode_sneReg_ignores_nibble : decodeWord 0x9AA7 = .ok (.sneReg 0xA 0xA) := by decide
theorem test_decode_ldI : decodeWord 0xA123 = .ok (.ldI 0x123) := by decide
theorem test_decode_jpV0 : decodeWord 0xB300 = .ok (.jpV0 0x300) := by decide
theorem test_decode_rnd : decodeWord 0xC30F = .ok (.rnd 3 0x0F) := by decide
theorem test_decode_drw : decodeWord 0xD345 = .ok (.drw 3 4 5) := by decide
theorem test_decode_skp : decodeWord 0xE29E = .ok (.skp 2) := by decide
theorem test_decode_sknp : decodeWord 0xE2A1 = .ok (.sknp 2) := by decide
theorem test_decode_ldVxDT : decodeWord 0xF307 = .ok (.ldVxDT 3) := by decide
theorem test_decode_ldVxK : decodeWord 0xF50A = .ok (.ldVxK 5) := by decide
theorem test_decode_ldDTVx : decodeWord 0xF315 = .ok (.ldDTVx 3) := by decide
theorem test_decode_ldSTVx : decodeWord 0xF318 = .ok (.ldSTVx 3) := by decide
theorem test_decode_addI : decodeWord 0xF11E = .ok (.addI 1) := by decide
theorem test_decode_ldF : decodeWord 0xF029 = .ok (.ldF 0) := by decide
theorem test_decode_ldB : decodeWord 0xF033 = .ok (.ldB 0) := by decide
theorem test_decode_storeRegs : decodeWord 0xF355 = .ok (.storeRegs 3) := by decide
theorem test_decode_loadRegs : decodeWord 0xF265 = .ok (.loadRegs 2) := by decide

/-- The illegal words that 95_test_vectors.md section 2.1 lists. -/
theorem test_decode_refuses_the_listed_illegal_words :
    [(0x0000 : Word), 0x00E1, 0x0123, 0x8008, 0x8128, 0x800F, 0xE000, 0xE29F, 0xF000, 0xF1FF, 0xF156, 0xFFFF].all
      (fun w => match decodeWord w with | .ok _ => false | .error _ => true) = true := by decide

theorem test_decode_refuses_one_byte : decode [0x12] = .error .truncated := by decide
theorem test_decode_high_byte_first : decode [0x12, 0x34, 0x56] = .ok (.jp 0x234, [0x56]) := by decide
theorem test_decodeTableWord : decodeTableWord 16 0xD345 = some (.drw 3 4 5) := by decide
theorem test_encode_subnReg : encode (.subnReg 0xA 0xB) = 0x8AB7 := by decide
theorem test_encode_drw : encode (.drw 3 4 5) = 0xD345 := by decide

/-! ### Control transfer -/

/-- T11. -/
theorem test_ret_pops_the_top_slot : after 0x00EE
    (fun g => { g with sp := .top 3, stack := (g.stack.set 2 0x0222).set 3 0x0456 })
    (fun t => t.outcome = .success && t.guest.pc = 0x0456 && t.guest.sp = .top 2 && t.guest.slot 3 = 0x0456) = true := by
  decide

/-- E4. -/
theorem test_ret_underflows : after 0x00EE id
    (fun t => t = { boot 0x00EE id with outcome := .fault .stackUnderflow }) = true := by decide

/-- T12. -/
theorem test_jp : after 0x1ABC id (fun t => t.outcome = .success && t.guest.pc = 0x0ABC) = true := by decide

/-- T15. -/
theorem test_call_fills_the_last_slot : after 0x2300 (fun g => { g with sp := .top 14 })
    (fun t => t.guest.sp = .top 15 && t.guest.slot 15 = 0x0202 && t.guest.pc = 0x0300) = true := by decide

/-- T16. -/
theorem test_call_overflows : after 0x2300 (fun g => { g with sp := .top 15 })
    (fun t => t.outcome = .fault .stackOverflow && t.guest = (boot 0x2300 (fun g => { g with sp := .top 15 })).guest) =
      true := by decide

/-- T17, T18. -/
theorem test_seImm : after 0x3A42 (·.setV 10 0x42) (·.guest.pc = 0x0204) = true ∧
    after 0x3A42 (·.setV 10 0x43) (·.guest.pc = 0x0202) = true := by decide

/-- T19, T20. -/
theorem test_sneImm : after 0x432A (·.setV 3 0x2A) (·.guest.pc = 0x0202) = true ∧
    after 0x432A id (·.guest.pc = 0x0204) = true := by decide

/-- T21, T22. -/
theorem test_seReg : after 0x5120 (fun g => (g.setV 1 7).setV 2 7) (·.guest.pc = 0x0204) = true ∧
    after 0x5121 (fun g => (g.setV 1 7).setV 2 8) (·.guest.pc = 0x0202) = true := by decide

/-- T23, T24. -/
theorem test_sneReg : after 0x9120 (fun g => (g.setV 1 7).setV 2 8) (·.guest.pc = 0x0204) = true ∧
    after 0x9AA7 (·.setV 10 9) (·.guest.pc = 0x0202) = true := by decide

/-- T26. -/
theorem test_jpV0_does_not_wrap_at_12_bits : after 0xBFFF (·.setV 0 0xFF) (·.guest.pc = 0x10FE) = true := by decide

/-! ### Load, arithmetic, logic, random -/

/-- T27. -/
theorem test_ldImm : after 0x6C7F id (fun t => t.guest.getV 12 = 0x7F && t.guest.pc = 0x0202) = true := by decide

/-- T28. -/
theorem test_addImm_sets_no_flag : after 0x7001 (fun g => (g.setV 0 0xFF).setV 15 0x55)
    (fun t => t.guest.getV 0 = 0 && t.guest.getV 15 = 0x55) = true := by decide

/-- T29. -/
theorem test_addImm_to_the_flag_register : after 0x7F10 (·.setV 15 0xF8) (·.guest.getV 15 = 0x08) = true := by decide

/-- T30. -/
theorem test_ldReg : after 0x8120 (·.setV 2 0x99) (fun t => t.guest.getV 1 = 0x99 && t.guest.getV 2 = 0x99) = true := by
  decide

/-- T31. -/
theorem test_orReg : after 0x8121 (fun g => ((g.setV 1 0xF0).setV 2 0x0F).setV 15 7)
    (fun t => t.guest.getV 1 = 0xFF && t.guest.getV 15 = 7) = true := by decide

/-- T32. -/
theorem test_andReg : after 0x8122 (fun g => ((g.setV 1 0xF0).setV 2 0x3C).setV 15 7)
    (fun t => t.guest.getV 1 = 0x30 && t.guest.getV 15 = 7) = true := by decide

/-- T33. -/
theorem test_xorReg : after 0x8123 (fun g => ((g.setV 1 0xFF).setV 2 0x0F).setV 15 7)
    (fun t => t.guest.getV 1 = 0xF0 && t.guest.getV 15 = 7) = true := by decide

/-- T35, T36: the carry is set above 255. -/
theorem test_addReg_carry_boundary :
    after 0x8014 (fun g => (g.setV 0 0x80).setV 1 0x7F) (fun t => t.guest.getV 0 = 0xFF && t.guest.getV 15 = 0) = true ∧
    after 0x8014 (fun g => (g.setV 0 0x80).setV 1 0x80) (fun t => t.guest.getV 0 = 0x00 && t.guest.getV 15 = 1) = true := by
  decide

/-- T37, T38: the result overwrites the flag, and the operand is read before it. -/
theorem test_addReg_with_the_flag_register :
    after 0x8F14 (fun g => (g.setV 15 0xF0).setV 1 0x20) (·.guest.getV 15 = 0x10) = true ∧
    after 0x81F4 (fun g => (g.setV 1 0xFF).setV 15 0x01) (fun t => t.guest.getV 1 = 0 && t.guest.getV 15 = 1) = true := by
  decide

/-- T41, T42. -/
theorem test_subReg_equal_and_borrow :
    after 0x8015 (fun g => (g.setV 0 0x33).setV 1 0x33) (fun t => t.guest.getV 0 = 0 && t.guest.getV 15 = 0) = true ∧
    after 0x8015 (fun g => (g.setV 0 0x01).setV 1 0x02) (fun t => t.guest.getV 0 = 0xFF && t.guest.getV 15 = 0) = true := by
  decide

/-- T43. -/
theorem test_subReg_to_the_flag_register : after 0x8F15 (fun g => (g.setV 15 5).setV 1 3) (·.guest.getV 15 = 2) = true := by
  decide

/-- T44. -/
theorem test_shr_in_place : after 0x8106 (fun g => (g.setV 1 0x05).setV 0 0xAA)
    (fun t => t.guest.getV 1 = 0x02 && t.guest.getV 15 = 1 && t.guest.getV 0 = 0xAA) = true := by decide

/-- E6, T47. -/
theorem test_subnReg :
    after 0x8127 (fun g => (g.setV 1 4).setV 2 3)
      (fun t => t.guest.getV 1 = 0xFF && t.guest.getV 15 = 0 && t.guest.getV 2 = 3) = true ∧
    after 0x8127 (fun g => (g.setV 1 3).setV 2 4) (fun t => t.guest.getV 1 = 1 && t.guest.getV 15 = 1) = true := by decide

/-- T49, T51. -/
theorem test_shl :
    after 0x810E (·.setV 1 0x81) (fun t => t.guest.getV 1 = 0x02 && t.guest.getV 15 = 1) = true ∧
    after 0x8F0E (·.setV 15 0x80) (·.guest.getV 15 = 0) = true := by decide

/-- T53, whatever the oracle yields. -/
theorem test_rnd_mask_zero (s : State) : ∃ t, exec (.rnd 3 0x00) s = .next t ∧ t.guest.getV 3 = 0 :=
  ⟨_, rfl, by simp [Guest.getV, Guest.setV]⟩

/-! ### Index register and memory -/

/-- T54. -/
theorem test_ldI : after 0xA123 id (·.guest.I = 0x0123) = true := by decide

/-- T55, T56. -/
theorem test_addI :
    after 0xF11E (fun g => { (g.setV 1 0xFF).setV 15 9 with I := 0x0FFF })
      (fun t => t.guest.I = 0x10FE && t.guest.getV 15 = 9) = true ∧
    after 0xF11E (fun g => { g.setV 1 2 with I := 0xFFFF }) (·.guest.I = 0x0001) = true := by decide

/-- T57, T58: the digit is not masked. -/
theorem test_ldF : after 0xF029 (·.setV 0 0x0A) (·.guest.I = 0x0032) = true ∧
    after 0xF029 (·.setV 0 0xFF) (·.guest.I = 0x04FB) = true := by decide

/-- T61. -/
theorem test_ldB_at_the_top_of_memory : after 0xF033 (fun g => { g.setV 0 0xFF with I := 0x0FFD })
    (fun t => readByte t.guest.mem 0xFFD = 2 && readByte t.guest.mem 0xFFE = 5 && readByte t.guest.mem 0xFFF = 5) =
      true := by decide

/-- T62. -/
theorem test_ldB_beyond_memory : after 0xF033 (fun g => { g.setV 0 0xFF with I := 0x0FFE })
    (fun t => t = { boot 0xF033 (fun g => { g.setV 0 0xFF with I := 0x0FFE }) with
      outcome := .fault .invalidMemoryLocation }) = true := by decide

/-- T63. -/
theorem test_storeRegs : after 0xF355
    (fun g => { (((((g.setV 0 0x11).setV 1 0x22).setV 2 0x33).setV 3 0x44).setV 4 0x55) with I := 0x0300 })
    (fun t => readWord t.guest.mem 0x300 = 0x1122 && readWord t.guest.mem 0x302 = 0x3344 &&
      readWord t.guest.mem 0x304 = 0 && t.guest.I = 0x0300) = true := by decide

/-- T67. -/
theorem test_storeRegs_beyond_memory : after 0xF055 (fun g => { g.setV 0 0x77 with I := 0x1000 })
    (fun t => t.outcome = .fault .invalidMemoryLocation && t.guest.pc = 0x0200) = true := by decide

/-- T69. -/
theorem test_loadRegs : after 0xF265
    (fun g => { g.setV 3 0xEE with I := 0x0300, mem := writeBytes g.mem 0x300 [9, 8, 7, 6] })
    (fun t => t.guest.getV 0 = 9 && t.guest.getV 1 = 8 && t.guest.getV 2 = 7 && t.guest.getV 3 = 0xEE &&
      t.guest.I = 0x0300) = true := by decide

/-- T71. -/
theorem test_loadRegs_beyond_memory : after 0xF165 (fun g => { (g.setV 0 1).setV 1 2 with I := 0x0FFF })
    (fun t => t.outcome = .fault .invalidMemoryLocation && t.guest.getV 0 = 1 && t.guest.getV 1 = 2) = true := by decide

/-! ### Display -/

/-- T72. -/
theorem test_cls : after 0x00E0 (fun g => { g.setV 15 1 with fb := Vector.replicate 32 (BitVec.allOnes 64) })
    (fun t => t.guest.fb = Framebuffer.blank && t.guest.getV 15 = 1) = true := by decide

/-- T75: a row wraps column by column, one pixel collides. -/
theorem test_drw_wraps_and_collides : after 0xD011
    (fun g => { g.setV 0 60 with I := 0x300, mem := writeByte g.mem 0x300 0xFF, fb := lit [(1, 0)] })
    (fun t => t.guest.fb = lit [(60, 0), (61, 0), (62, 0), (63, 0), (0, 0), (2, 0), (3, 0)] &&
      t.guest.getV 15 = 1 && t.outcome = .success) = true := by decide

/-- E8: the rows inside memory are drawn, the first outside faults. -/
theorem test_drw_faults_after_its_first_row : after 0xD012
    (fun g => { g.setV 15 1 with I := 0x0FFF, mem := writeByte g.mem 0xFFF 0x81 })
    (fun t => t.guest.fb = lit [(0, 0), (7, 0)] && t.guest.getV 15 = 0 &&
      t.outcome = .fault .invalidSpriteLocation && t.guest.pc = 0x0200) = true := by decide

/-! ### Keypad and timers -/

/-- T81, T83. -/
theorem test_skp :
    after 0xE29E (fun g => { g.setV 2 7 with key := g.key.set 7 true }) (·.guest.pc = 0x0204) = true ∧
    after 0xE29E (·.setV 2 16) (fun t => t.outcome = .fault .invalidKey && t.guest.pc = 0x0200) = true := by decide

/-- T84, T86. -/
theorem test_sknp : after 0xE2A1 (·.setV 2 7) (·.guest.pc = 0x0204) = true ∧
    after 0xE2A1 (·.setV 2 0xFF) (·.outcome = .fault .invalidKey) = true := by decide

/-- T87. -/
theorem test_ldVxDT : after 0xF307 (fun g => { g with DT := 0x2A })
    (fun t => t.guest.getV 3 = 0x2A && t.guest.DT = 0x2A) = true := by decide

/-- T88. -/
theorem test_ldDTVx : after 0xF315 (·.setV 3 0x3C) (·.guest.DT = 0x3C) = true := by decide

/-- T89. -/
theorem test_ldSTVx : after 0xF318 (·.setV 3 0x1E)
    (fun t => t.guest.ST = 0x1E && t.orch.emittingTone = false && t.events = []) = true := by decide

/-- T90. -/
theorem test_ldVxK_ignores_a_held_key : after 0xF50A (fun g => { g with key := g.key.set 3 true })
    (fun t => t.outcome = .haltedOnKeyPress && t.guest.halted && t.guest.kpr = 5 && t.guest.pc = 0x0202 &&
      t.guest.getV 5 = 0) = true := by decide

/-- T94: the press writes the key's number to the register that waits, here `VF`. -/
theorem test_key_press_ends_the_wait :
    afterCommand (.setKeyState 9 true) (boot 0x0000 (fun g => { g with halted := true, kpr := 15 }))
      (fun t r => t.guest.getV 15 = 9 && !t.guest.halted && t.guest.key[9] && r = .done) = true := by decide

/-! ### Fetch -/

/-- T95, T96: 4094 is the last address that can be fetched from. -/
theorem test_fetch_boundary :
    after 0x0000 (fun g => { g with pc := 0x0FFE, mem := writeBytes g.mem 0xFFE [0x12, 0x34] }) (·.guest.pc = 0x0234) =
      true ∧
    after 0x0000 (fun g => { g with pc := 0x0FFF })
      (fun t => t.outcome = .fault .fetchOutOfRange && t.guest.pc = 0x0FFF) = true := by decide

/-- T98: an odd `pc` is legal, and `mem[pc]` is the high byte. -/
theorem test_fetch_odd_pc :
    after 0x0000 (fun g => { g with pc := 0x0201, mem := writeBytes g.mem 0x201 [0x12, 0x34] }) (·.guest.pc = 0x0234) =
      true := by decide

theorem test_illegal_word_keeps_the_guest : after 0x0123 id
    (fun t => t = { boot 0x0123 id with outcome := .fault .invalidInstruction }) = true := by decide

/-! ### The orchestrator -/

/-- T117: the eighth step ticks and ends the frame. -/
theorem test_eighth_step_ticks_and_ends_the_frame :
    (match step { boot 0x1200 (fun g => { g with DT := 3 }) with
        orch := { Orchestrator.powerOn with timerStepCounter := 7, frameStepCounter := 7 } } with
      | .next t    => t.guest.DT = 2 && t.orch.timerStepCounter = 0 && t.orch.frameStepCounter = 0 &&
                        t.events = [.screenUpdate Framebuffer.blank]
      | .fault _   => false
      | .refused _ => false) = true := by decide

/-- T127: `ST = 1` gives one request of 50/3 ms, and the tone ends in the same tick. -/
theorem test_tone_of_one_tick :
    (let t := tick (boot 0x1200 (fun g => { g with ST := 1 }))
     t.guest.ST = 0 && !t.orch.emittingTone && t.events = [.toneRequest ({ num := 50, den := 3 } : Rat)]) = true := by
  decide +kernel

/-- T128: no second request while a tone is emitted. -/
theorem test_no_second_tone :
    (let s := boot 0x1200 (fun g => { g with ST := 5 })
     let t := tick { s with orch := { s.orch with emittingTone := true } }
     t.guest.ST = 4 && t.orch.emittingTone && t.events = []) = true := by decide

/-- T100, T101, T104 to T109: steps a frame and cadence divisor. -/
theorem test_configure_timing_accepts :
    [(500, (60 : Rat), 8, 8), (1000, 60, 16, 17), (150, 60, 2, 3), (90, 60, 1, 2), (89, 60, 1, 1), (60, 60, 1, 1),
     (29, 1, 29, 1), (600, 30, 20, 10)].all
      (fun c => afterCommand (.configureTiming c.1 c.2.1) State.reset
        (fun t r => t.orch.stepsPerFrame = c.2.2.1 && t.orch.timerDivisor = c.2.2.2 && r = .accepted)) = true := by
  decide +kernel

/-- T110 to T113. -/
theorem test_configure_timing_rejects :
    [((30 : Int), (60 : Rat)), (59, 60), (500, 0), (0, 60)].all
      (fun c => afterCommand (.configureTiming c.1 c.2) State.reset (fun t r => t = State.reset && r = .rejected)) =
        true := by decide +kernel

/-- T130, T131 in small: a one-shot breakpoint stops a frame before its step, and goes. -/
theorem test_frame_stops_at_a_breakpoint :
    afterCommand .runForOneFrame { boot 0x6001 id with
        orch := { Orchestrator.powerOn with bps := [⟨0x202, .clearAfterTrigger⟩] } }
      (fun t r => r = .outcome .breakpointReached && t.guest.getV 0 = 1 && t.guest.pc = 0x0202 && t.orch.bps = [] &&
        t.orch.frameStepCounter = 1 && t.orch.timerStepCounter = 1 && t.events = []) = true := by decide

/-- T129. -/
theorem test_one_frame_runs_eight_steps :
    afterCommand .runForOneFrame (boot 0x1200 id)
      (fun t r => r = .outcome .success && t.guest.pc = 0x0200 && t.orch.frameStepCounter = 0 &&
        t.orch.timerStepCounter = 0 && t.events = [.screenUpdate Framebuffer.blank]) = true := by decide

/-- T136: the oldest entry is the one consulted. -/
theorem test_oldest_breakpoint_wins :
    takeBreakpoint 0x200 [⟨0x200, .preserve⟩, ⟨0x200, .clearAfterTrigger⟩] =
      some [⟨0x200, .preserve⟩, ⟨0x200, .clearAfterTrigger⟩] := by decide

/-- T138. -/
theorem test_bpRemove :
    afterCommand (.bpRemove 0x204) { boot 0x1200 id with
        orch := { Orchestrator.powerOn with
          bps := [⟨0x204, .preserve⟩, ⟨0x300, .preserve⟩, ⟨0x204, .clearAfterTrigger⟩] } }
      (fun t r => t.orch.bps = [⟨0x300, .preserve⟩] && r = .removed 2) = true := by decide

/-- T144: the scan of `step_into` follows the parity of `pc`. -/
theorem test_step_into_scans_from_an_odd_pc :
    nextCall (writeBytes [] 0x203 [0x2A, 0xBC]) 2048 0x201 = some 0x0ABC := by decide

/-- T145. -/
theorem test_step_into_at_the_top :
    afterCommand .stepInto (boot 0x1200 (fun g => { g with pc := 0x0FFF }))
      (fun t r => r = .outcome (.fault .noSubroutine) && t.orch.bps = []) = true := by decide

/-- T140 to T143. -/
theorem test_step_over_targets :
    stepOverTarget { Guest.reset with mem := writeBytes [] 0x200 [0x60, 0x05, 0x22, 0x0C] } = 0x020E ∧
    stepOverTarget { Guest.reset with mem := writeBytes [] 0x200 [0x22, 0x0C, 0x60, 0x05] } = 0x0202 ∧
    stepOverTarget { Guest.reset with pc := 0x0FFE } = 0x1000 ∧
    stepOverTarget { Guest.reset with pc := 0x0FFC, mem := writeBytes [] 0xFFE [0x2F, 0xFF] } = 0x1001 := by decide

/-- T146. -/
theorem test_step_out_of_no_subroutine :
    afterCommand .stepOut State.reset (fun t r => t = State.reset && r = .outcome (.fault .notInSubroutine)) = true := by
  decide

/-- T148. -/
theorem test_set_pc :
    afterCommand (.setPc 4094) State.reset (fun t r => t.guest.pc = 0x0FFE && r = .accepted) = true ∧
    afterCommand (.setPc 4095) State.reset (fun t r => t = State.reset && r = .rejected) = true ∧
    afterCommand (.setPc 0x0201) State.reset (fun t r => t.guest.pc = 0x0201 && r = .accepted) = true := by decide

/-- T149: what `reset` restores and what it keeps. -/
theorem test_reset_restores_the_guest :
    afterCommand .reset { boot 0x1200 (fun g => { g with
          mem := writeByte g.mem 0 0x77, halted := true, sp := .top 5, DT := 9, fb := lit [(1, 1)] }) with
        orch := { Orchestrator.powerOn with
          frameStepCounter := 3, timerStepCounter := 5, emittingTone := true, bps := [⟨0x204, .preserve⟩] } }
      (fun t r => t.guest = Guest.reset && t.orch = { Orchestrator.powerOn with bps := [⟨0x204, .preserve⟩] } &&
        readByte t.guest.mem 0 = 0xF0 && r = .done) = true := by decide

theorem test_load_program :
    afterCommand (.loadProgram [0x12, 0x34]) (boot 0x6001 (·.setV 3 9))
      (fun t r => r = .accepted && readWord t.guest.mem 0x200 = 0x1234 && t.guest.getV 3 = 0) = true := by decide

/-- P6: steps 4 and 5, a store seen by the next fetch. -/
theorem test_store_is_fetched :
    (let s := stepsFrom 2 (boot 0xF155
        (fun g => { (g.setV 0 0x6A).setV 1 0x55 with I := 0x202 }))
     s.guest.getV 10 = 0x55 && s.guest.pc = 0x0204 && s.outcome = .success) = true := by decide

/-- The word after `withFetchWord` is the first instruction that runs from reset. -/
theorem test_withFetchWord :
    (match step (State.reset.withFetchWord 16 0x6C7F) with
      | .next t    => t.guest.getV 12 = 0x7F && t.guest.pc = 0x0202
      | .fault _   => false
      | .refused _ => false) = true := by decide

/-- A `pc` that cannot be fetched from, a wait and a breakpoint do not keep a placed word from running. -/
theorem test_withFetchWord_from_an_unfetchable_pc :
    (match step (State.withFetchWord { boot 0x0000 (fun g => { g with pc := 0x0FFF, halted := true }) with
        orch := { Orchestrator.powerOn with bps := [⟨0x200, .preserve⟩] } } 16 0x6C7F) with
      | .next t    => t.guest.getV 12 = 0x7F
      | .fault _   => false
      | .refused _ => false) = true := by decide

/-- Table R119: the codes are 0 to 11, in order. -/
theorem test_outcome_codes :
    [StepOutcome.success, .haltedOnKeyPress, .breakpointReached, .fault .invalidInstruction, .fault .invalidKey,
     .fault .invalidSpriteLocation, .fault .invalidMemoryLocation, .fault .stackUnderflow, .fault .stackOverflow,
     .fault .noSubroutine, .fault .notInSubroutine, .fault .fetchOutOfRange].map StepOutcome.code =
      List.range 12 := by decide

/-! ### Witnesses: a concrete state and operands that meet all the hypotheses of each statement that has some, clause by
clause, at the ends of the ranges -/

theorem witness_DecodingAnEncodedInstructionGivesItBack :
    (Instr.cls).wf = true ∧ (Instr.jp 0x0FFF).wf = true ∧ (Instr.drw 15 0 15).wf = true := by decide

theorem witness_EncodingADecodedWordLosesOnlyItsIgnoredBits :
    decodeWord 0x8AF6 = .ok (.shr 10) ∧
    (0x8A56 : Word) &&& ~~~ (Instr.shr 10).ignoredBits = 0x8AF6 &&& ~~~ (Instr.shr 10).ignoredBits := by decide

theorem witness_DispatchAgreesWithTheOpcodeTable :
    decodeWord 0x8AB7 = .ok (.subnReg 10 11) ∧
    (Instr.subnReg 0 0).row ∈ opcodeTable ∧ (Instr.subnReg 0 0).row.selects 0x8AB7 = true := by decide

/-- Both sides of the equivalence occur, in each of the four groups. -/
theorem witness_TheIllegalWordsAreThoseTheSpecLists :
    IllegalWord 0x00E1 ∧ IllegalWord 0x800F ∧ IllegalWord 0xE0FF ∧ IllegalWord 0xF000 ∧ ¬ IllegalWord 0xFF65 := by
  refine ⟨?_, ?_, ?_, ?_, ?_⟩ <;> (unfold IllegalWord; decide)

theorem witness_AStepRunsTheDecodedInstruction :
    let s := { boot 0x0000 (fun g => { g with pc := 0x0FFE, mem := writeBytes g.mem 0xFFE [0x12, 0x34] }) with
      orch := { Orchestrator.powerOn with bps := [⟨0x0FFC, .preserve⟩] } }
    takeBreakpoint s.guest.pc s.orch.bps = none ∧ s.guest.halted = false ∧ s.guest.pc.toNat ≤ 4094 ∧
    decodeWord (wordOfBytes (readByte s.guest.mem s.guest.pc.toNat) (readByte s.guest.mem (s.guest.pc.toNat + 1))) =
      .ok (.jp 0x0234) := by decide

theorem witness_AnIllegalWordRaisesInvalidInstruction :
    let s := boot 0x0000 (fun g => { g with pc := 0x0FFE })
    s.guest.halted = false ∧ s.guest.pc.toNat ≤ 4094 ∧
    decodeWord (wordOfBytes (readByte s.guest.mem s.guest.pc.toNat) (readByte s.guest.mem (s.guest.pc.toNat + 1))) =
      .error (.illegalGroup0 0) := by decide

theorem witness_AFetchAboveTheLastWordChangesNothing :
    (let s := boot 0x0000 (fun g => { g with pc := 0x0FFF })
     s.guest.halted = false ∧ s.guest.pc.toNat > 4094) ∧
    ∃ t, (boot 0x0000 (fun g => { g with pc := 0x0FFE })).guest.pc.toNat ≤ 4094 ∧
      engineStep (boot 0x0000 (fun g => { g with pc := 0x0FFE })) = .next t := ⟨by decide, _, by decide, rfl⟩

theorem witness_ABreakpointStopsTheStepBeforeAnythingElse :
    let older : List Breakpoint := [⟨0x300, .preserve⟩]
    let newer : List Breakpoint := [⟨0x200, .preserve⟩]
    let e : Breakpoint := ⟨0x200, .clearAfterTrigger⟩
    let s := { boot 0x1200 id with orch := { Orchestrator.powerOn with bps := older ++ e :: newer } }
    s.orch.bps = older ++ e :: newer ∧ (∀ b ∈ older, b.addr ≠ s.guest.pc) ∧ e.addr = s.guest.pc := by decide

/-- A machine in a key wait. -/
def waiting : State := boot 0x1200 (fun g => { g with halted := true, kpr := 5 })

theorem witness_AKeyWaitEndsOnlyByAPressOrAReset :
    waiting.guest.halted = true ∧
    (∀ k, Command.setKeyState 3 false ≠ .setKeyState k true) ∧ Command.setKeyState 3 false ≠ .reset ∧
    (∀ bytes, Command.setKeyState 3 false ≠ .loadProgram bytes) ∧
    ∃ t r, runCommand (.setKeyState 3 false) waiting = .next (t, r) := by
  refine ⟨by decide, ?_, by decide, ?_, _, _, rfl⟩
  · intro k h; cases h
  · intro bytes h; cases h

theorem witness_EveryStepPastTheBreakpointCheckAdvancesBothCounters :
    (let s := { boot 0x1200 id with orch := { Orchestrator.powerOn with frameStepCounter := 7 } }
     takeBreakpoint s.guest.pc s.orch.bps = none ∧ s.orch.frameStepCounter + 1 ≥ s.orch.stepsPerFrame) ∧
    (let s := { boot 0x1200 id with orch := { Orchestrator.powerOn with frameStepCounter := 6 } }
     takeBreakpoint s.guest.pc s.orch.bps = none ∧ s.orch.frameStepCounter + 1 < s.orch.stepsPerFrame) := by decide

theorem witness_EveryStepCompletesAndOnlyAFullStoreRefuses :
    (Command.setKeyState 15 true).wf = true ∧ Command.stepInto.wf = true := by decide

/-- The invariant holds of a state that is not the reset state. -/
theorem boot_jump_inv : (boot 0x1200 (·.setV 3 9)).Inv :=
  { sound :=
      { mem    := by decide
        timing :=
          { ips_pos := by decide, fps_pos := by decide +kernel, spf := by decide +kernel, spf_pos := by decide,
            divisor := by decide, frameTime := by decide +kernel }
        store  := fun n _ => Nat.zero_le n }
    counters := { frame := by decide, timer := by decide } }

theorem witness_EveryStepKeepsTheInvariant :
    ∃ t, (boot 0x1200 (·.setV 3 9)).Inv ∧ step (boot 0x1200 (·.setV 3 9)) = .next t := ⟨_, boot_jump_inv, rfl⟩

theorem witness_EveryCommandKeepsTheInvariant :
    ∃ t r, (boot 0x1200 (·.setV 3 9)).Inv ∧ (boot 0x1200 (·.setV 3 9)).Sound ∧
      (∀ ips fps, Command.setPc 4094 ≠ .configureTiming ips fps) ∧
      runCommand (.setPc 4094) (boot 0x1200 (·.setV 3 9)) = .next (t, r) :=
  ⟨_, _, boot_jump_inv, boot_jump_inv.sound, (fun _ _ h => by cases h), rfl⟩

/-- `exec` answers each of the three kinds of outcome: a fault, a success, a pause. -/
theorem witness_PcIsCommittedOnlyBySuccessOrTheKeyWait :
    (∃ t, exec .ret (boot 0x00EE id) = .next t ∧ t.outcome ≠ .success ∧ t.outcome ≠ .haltedOnKeyPress) ∧
    (∃ t, exec (.jp 0x0FFF) (boot 0x00EE id) = .next t ∧ (t.outcome = .success ∨ t.outcome = .haltedOnKeyPress)) ∧
    (∃ t, exec (.ldVxK 15) (boot 0x00EE id) = .next t ∧ (t.outcome = .success ∨ t.outcome = .haltedOnKeyPress)) ∧
    ∃ t, waiting.guest.halted = true ∧ engineStep waiting = .next t := by
  refine ⟨⟨_, rfl, ?_, ?_⟩, ⟨_, rfl, ?_⟩, ⟨_, rfl, ?_⟩, _, ?_, rfl⟩ <;> decide

/-- A fault without a trace, and the fault of a draw that drew its first row. -/
theorem witness_OnlyAFaultingDrawChangesTheState :
    (∃ t, exec .ret (boot 0x00EE id) = .next t ∧ t.outcome = .fault .stackUnderflow) ∧
    ∃ t, exec (.drw 0 1 2) (boot 0x00EE (fun g => { g with I := 0x0FFF })) = .next t ∧
      t.outcome = .fault .invalidSpriteLocation := by
  refine ⟨⟨_, rfl, ?_⟩, _, rfl, ?_⟩ <;> decide

theorem witness_EachPieceOfStateHasOnlyItsNamedWriters :
    ∃ t, exec (.ldImm 3 7) (boot 0x6307 id) = .next t ∧ (∀ a, Instr.ldImm 3 7 ≠ .ldI a) ∧
      (∀ x, Instr.ldImm 3 7 ≠ .addI x) ∧ (∀ x, Instr.ldImm 3 7 ≠ .ldF x) ∧ Instr.ldImm 3 7 ≠ .ret ∧
      (∀ a, Instr.ldImm 3 7 ≠ .call a) ∧ (∀ x, Instr.ldImm 3 7 ≠ .ldDTVx x) ∧ (∀ x, Instr.ldImm 3 7 ≠ .ldSTVx x) ∧
      (∀ x, Instr.ldImm 3 7 ≠ .ldB x) ∧ (∀ x, Instr.ldImm 3 7 ≠ .storeRegs x) ∧ Instr.ldImm 3 7 ≠ .cls ∧
      (∀ x y n, Instr.ldImm 3 7 ≠ .drw x y n) ∧ (∀ x, Instr.ldImm 3 7 ≠ .ldVxK x) ∧
      (∀ x k, Instr.ldImm 3 7 ≠ .rnd x k) ∧ ¬ (Instr.ldImm 3 7).MayWriteV 4 ∧ ¬ (Instr.loadRegs 14).MayWriteV 15 ∧
      ¬ (Instr.ldImm 3 7).AssignsNextPc := by
  refine ⟨_, rfl, ?_⟩
  simp [Instr.MayWriteV, Instr.AssignsNextPc]

theorem witness_TheGuestCannotReachTheOrchestrator :
    ∃ t, exec (.ldSTVx 3) (boot 0xF318 (·.setV 3 0x1E)) = .next t := ⟨_, rfl⟩

theorem witness_OnlySixInstructionsWriteTheFlagAsASideEffect :
    (∃ t, exec (.addReg 14 15) (boot 0x8EF4 (·.setV 15 0xFF)) = .next t) ∧ (14 : Reg) ≠ 15 := ⟨⟨_, rfl⟩, by decide⟩

theorem witness_CallPushesAndReturnPops :
    (boot 0x00EE id).guest.sp.toInt = -1 ∧
    0 ≤ (boot 0x00EE (fun g => { g with sp := .top 0 })).guest.sp.toInt ∧
    (boot 0x00EE (fun g => { g with sp := .top 15 })).guest.sp.toInt = 15 ∧
    (boot 0x00EE (fun g => { g with sp := .top 14 })).guest.sp.toInt < 15 := by decide

theorem witness_AReturnComesBackBehindItsCall :
    ∃ t, exec (.call 0x0300) (boot 0x2300 (fun g => { g with sp := .top 14 })) = .next t ∧ t.outcome = .success ∧
      ∃ u : State, u.guest.sp = t.guest.sp ∧ u.guest.stack = t.guest.stack ∧ u.guest.pc = 0x0400 := by
  refine ⟨_, rfl, by decide, boot 0x00EE (fun g => { g with
    sp := .top 15, stack := g.stack.set 15 0x0202, pc := 0x0400 }), ?_, ?_, ?_⟩ <;> decide

theorem witness_JumpWithOffsetAddsRegisterZero : (0x0FFF : Word).toNat ≤ 4095 := by decide

theorem witness_KeySkipsTestTheKeyTheyName :
    ((boot 0xE29E (·.setV 2 16)).guest.getV 2).toNat > 15 ∧ ((boot 0xE29E (·.setV 2 15)).guest.getV 2).toNat < 16 := by
  decide

theorem witness_AddSetsTheCarryAndStoresTheSum : (14 : Reg) ≠ 15 := by decide

theorem witness_SubtractionsSetTheFlagWhenTheMinuendIsGreater : (0 : Reg) ≠ 15 := by decide

theorem witness_ShiftsMoveOneBitIntoTheFlag : (14 : Reg) ≠ 15 := by decide

theorem witness_RandomStaysUnderItsMask :
    (0 : Reg) ≠ 3 ∧ (0x0F : Byte).getLsbD 4 = false ∧ (0x00 : Byte) = 0 := by decide

theorem witness_BcdStoresTheThreeDecimalDigits :
    (boot 0xF033 (fun g => { g with I := 0x0FFE })).guest.effectiveAddress 2 > 4095 ∧
    (boot 0xF033 (fun g => { g with I := 0x0FFD })).guest.effectiveAddress 2 ≤ 4095 := by decide

theorem witness_BulkStoreWritesRegistersZeroToX :
    (boot 0xFF55 (fun g => { g with I := 0x0FF1 })).guest.effectiveAddress (15 : Reg).val > 4095 ∧
    (boot 0xFF55 (fun g => { g with I := 0x0FF0 })).guest.effectiveAddress (15 : Reg).val ≤ 4095 ∧
    (15 : Reg) ≤ 15 := by decide

theorem witness_BulkLoadReadsRegistersZeroToX :
    (boot 0xFF65 (fun g => { g with I := 0x0FF1 })).guest.effectiveAddress (15 : Reg).val > 4095 ∧
    (boot 0xFF65 (fun g => { g with I := 0x0FF0 })).guest.effectiveAddress (15 : Reg).val ≤ 4095 ∧
    (15 : Reg) ≤ 15 := by decide

theorem witness_ABulkLoadRestoresWhatABulkStoreStored :
    ∃ t, exec (.storeRegs 15) (boot 0xFF55 (fun g => { g with I := 0x0FF0 })) = .next t ∧ t.outcome = .success ∧
      ∃ u : State, u.guest.mem = t.guest.mem ∧ u.guest.I = (boot 0xFF55 (fun g => { g with I := 0x0FF0 })).guest.I :=
  ⟨_, rfl, by decide, _, rfl, rfl⟩

theorem witness_AStoreIsSeenByTheNextFetch :
    (let s := boot 0xF155 (fun g => { (g.setV 0 0x6A).setV 1 0x55 with I := 0x202 })
     ∃ t, exec (.storeRegs 1) s = .next t ∧ 1 ≤ (1 : Reg).val ∧ t.outcome = .success ∧ t.guest.pc = s.guest.I ∧
       t.guest.halted = false ∧ decodeWord (wordOfBytes (s.guest.getV 0) (s.guest.getV 1)) = .ok (.ldImm 10 0x55)) := by
  refine ⟨_, rfl, ?_, ?_, ?_, ?_, ?_⟩ <;> decide

theorem witness_DrawExclusiveOrsTheSpriteAndReportsCollisions :
    (15 ≤ 15 ∧ (boot 0xD01F (fun g => { g with I := 0x0FF1 })).guest.I.toNat + 15 ≤ 4096) ∧
    (0 ≤ 15 ∧ ((0 : Nat) = 0 ∨ (boot 0xD010 (fun g => { g with I := 0xFFFF })).guest.I.toNat + 0 ≤ 4096)) := by decide

theorem witness_AFaultingDrawKeepsTheRowsItDrew :
    (2 ≤ 15 ∧ 2 ≠ 0 ∧ (boot 0xD012 (fun g => { g with I := 0x0FFF })).guest.I.toNat + 2 > 4096) ∧
    (1 ≤ 15 ∧ 1 ≠ 0 ∧ (boot 0xD011 (fun g => { g with I := 0x1000 })).guest.I.toNat + 1 > 4096) := by decide

theorem witness_DrawingTwiceRestoresTheFramebuffer :
    (0 : Reg) ≠ 15 ∧ (14 : Reg) ≠ 15 ∧ 15 ≤ 15 ∧
    ∃ t, exec (.drw 0 14 15) (boot 0xD0EF id) = .next t ∧ t.outcome = .success := by
  refine ⟨by decide, by decide, by decide, _, rfl, ?_⟩; decide

/-- Zero written; a value written while a tone is emitted; a value written while none is; an instruction that may not see
`ST`. -/
theorem witness_TimerMovesCopyOneByte :
    (boot 0xF318 id).guest.getV 3 = 0 ∧
    { boot 0xF318 (·.setV 3 1) with orch := { Orchestrator.powerOn with emittingTone := true } }.orch.emittingTone = true ∧
    ((boot 0xF318 (·.setV 3 1)).guest.getV 3 ≠ 0 ∧ (boot 0xF318 (·.setV 3 1)).orch.emittingTone = false) ∧
    ∃ t, (∀ y, Instr.ldVxDT 3 ≠ .ldSTVx y) ∧ exec (.ldVxDT 3) (boot 0xF307 id) = .next t :=
  ⟨by decide, rfl, ⟨by decide, rfl⟩, _, (fun _ h => by cases h), rfl⟩

/-- A press and a release that find the wait, and a press that finds none. -/
theorem witness_AKeyWaitReceivesTheNextPress :
    (15 ≤ 15 ∧ waiting.guest.halted = true) ∧ (15 ≤ 15 ∧ (false = false ∨ waiting.guest.halted = false)) ∧
    (15 ≤ 15 ∧ (true = false ∨ (boot 0x1200 id).guest.halted = false)) := by decide

/-- A step whose timer phase starts a tone; a step that does not tick. -/
theorem witness_AToneIsRequestedOnceUntilItEnds :
    (∃ t, step (boot 0x1200 (fun g => { g with ST := 1 })) = .next t ∧
      ¬ (boot 0x1200 id).orch.timerStepCounter + 1 ≥ (boot 0x1200 id).orch.timerDivisor) ∧
    let s := { boot 0x1200 (fun g => { g with ST := 1 }) with
      orch := { Orchestrator.powerOn with timerStepCounter := 7 } }
    ∃ t, step s = .next t ∧ takeBreakpoint s.guest.pc s.orch.bps = none ∧
      s.orch.timerStepCounter + 1 ≥ s.orch.timerDivisor ∧ s.guest.ST.toNat > 0 ∧ s.orch.emittingTone = false := by
  refine ⟨⟨_, rfl, by decide⟩, _, rfl, ?_, ?_, ?_, ?_⟩ <;> decide

theorem witness_ConfigureTimingDerivesOrRejects :
    ((0 : Int) ≤ 0) ∧ (((59 : Int) : Rat) < 60) ∧
    ((0 : Int) < 60 ∧ (0 : Rat) < 60 ∧ (60 : Rat) ≤ ((60 : Int) : Rat)) ∧
    ((0 : Int) < 29 ∧ (0 : Rat) < 1 ∧ (1 : Rat) ≤ ((29 : Int) : Rat) ∧ (29 : Int) < 30) ∧ (30 : Int) ≤ 30 := by
  decide +kernel

theorem witness_ResetIsTotalAndIdempotent : 79 < 80 ∧ 80 ≤ 80 := by decide

theorem witness_ResetLeavesTheTableOfResetValues : 79 < 80 ∧ 80 ≤ 80 := by decide

theorem witness_LoadProgramResetsAndCopies :
    (List.replicate 3585 (0 : Byte)).length > 3584 ∧ (List.replicate 3584 (0 : Byte)).length ≤ 3584 := by
  rw [List.length_replicate, List.length_replicate]; decide

/-- A call as the first word, at the last fetchable address; and a scan that finds none there. -/
theorem witness_StepIntoFindsTheNextCall :
    (let s := boot 0x0000 (fun g => { g with pc := 0x0FFE, mem := writeBytes g.mem 0xFFE [0x2A, 0xBC] })
     s.guest.pc.toNat + 2 * 0 ≤ 4094 ∧
     (∀ m, m < 0 → (readWord s.guest.mem (s.guest.pc.toNat + 2 * m)).toNat / 4096 ≠ 2) ∧
     (readWord s.guest.mem (s.guest.pc.toNat + 2 * 0)).toNat / 4096 = 2) ∧
    (let s := boot 0x0000 (fun g => { g with pc := 0x0FFE })
     ∀ j : Nat, s.guest.pc.toNat + 2 * j ≤ 4094 →
       (readWord s.guest.mem (s.guest.pc.toNat + 2 * j)).toNat / 4096 ≠ 2) := by
  refine ⟨by decide, fun j hj => ?_⟩
  have hpc : (boot 0x0000 (fun g => { g with pc := 0x0FFE })).guest.pc.toNat = 4094 := by decide
  have h0 : j = 0 := by simp only [hpc] at hj; omega
  subst h0
  decide

theorem witness_StepOverAndStepOutPlantOneShots :
    (boot 0x0000 id).guest.sp.toInt = -1 ∧ 0 ≤ (boot 0x0000 (fun g => { g with sp := .top 0 })).guest.sp.toInt := by
  decide

theorem witness_SettersWriteTheirRegisterAndRejectionChangesNothing :
    4094 ≤ 4094 ∧ 4094 < 4095 ∧ 15 < 16 ∧
    ∃ t, runCommand (.setPc 4095) State.reset = .next (t, .rejected) := by
  refine ⟨by decide, by decide, by decide, _, rfl⟩

theorem witness_APlacedWordIsTheNextInstruction : decodeWord 0xFF65 = .ok (.loadRegs 15) := by decide

end Sys2Proof.Tests
end

section
/-! The decoder's fields (30_encoding.md R40): the three overlap identities, and the statement assembled from the
fields' laws. -/

namespace Sys2Proof

theorem address_toNat_eq_x_byte (w : Word) :
    (fieldsOf w).address.toNat = (fieldsOf w).x.toNat * 256 + (fieldsOf w).byte.toNat := by
  rw [address_toNat, x_toNat, byte_toNat]; omega

theorem byte_toNat_eq_y_nibble (w : Word) :
    (fieldsOf w).byte.toNat = (fieldsOf w).y.toNat * 16 + (fieldsOf w).nibble.toNat := by
  rw [byte_toNat, y_toNat, nibble_toNat]; omega

theorem toNat_eq_group_address (w : Word) :
    w.toNat = (fieldsOf w).group.toNat * 4096 + (fieldsOf w).address.toNat := by
  rw [group_toNat, address_toNat]; omega

/-- Settles O1: each field is its slice as arithmetic, and each overlap joins two neighbouring slices. -/
theorem decoderFieldsAreTheBitSlices : Obligations.DecoderFieldsAreTheBitSlices := by
  intro w
  have hraw : (fieldsOf w).raw = w := rfl
  exact ⟨group_toNat w, x_toNat w, y_toNat w, address_toNat w, byte_toNat w, nibble_toNat w, hraw,
    address_toNat_eq_x_byte w, byte_toNat_eq_y_nibble w, toNat_eq_group_address w⟩

end Sys2Proof
end

section
/-! The key wait (40_step.md R58): what each host command does to `halted`. The stepping commands are followed through the
orchestrator step; the breakpoint, debug and timing commands leave the whole guest; the setters write another register. -/

namespace Sys2Proof.Machine

/-! ### The stepping commands -/

/-- A waiting machine waits on: its engine step reports the wait, and the phases around it write no `halted`. -/
theorem orchStep_keeps_halted {s t : State} (hs : s.guest.halted = true) (h : orchStep s = .next t) :
    t.guest.halted = true := by
  obtain ⟨bps, -, rfl⟩ | ⟨-, u, hu, rfl⟩ := orchStep_cases h
  · exact hs
  · have hw : (timerPhase s).guest.halted = true := by rw [timerPhase_halted, hs]
    rw [engineStep_halted hw] at hu
    cases hu
    rw [framePhase_guest]
    exact hw

theorem runSteps_keeps_halted (n : Nat) {s t : State} (hs : s.guest.halted = true) (h : runSteps n s = .next t) :
    t.guest.halted = true := by
  induction n generalizing s with
  | zero => cases h; exact hs
  | succ n ih =>
    cases ho : orchStep s with
    | next u =>
      have hu := orchStep_keeps_halted hs ho
      by_cases hout : u.outcome = .success
      · rw [runSteps_success ho hout] at h; exact ih hu h
      · rw [runSteps_stop ho hout] at h; cases h; exact hu
    | fault f => rw [runSteps, ho] at h; cases h
    | refused f => rw [runSteps, ho] at h; cases h

/-! ### The commands that leave the guest -/

theorem configureTiming_guest {ips : Int} {fps : Rat} {s t : State} {r : Reply}
    (h : configureTiming ips fps s = .next (t, r)) : t.guest = s.guest := by
  unfold configureTiming at h
  split at h
  · cases h; rfl
  · split at h <;> cases h <;> rfl

theorem bpAdd_guest {a : Word} {d : Disposition} {s t : State} {r : Reply} (h : bpAdd a d s = .next (t, r)) :
    t.guest = s.guest := by
  unfold bpAdd at h
  split at h <;> cases h <;> rfl

theorem plantOneShot_guest {a : Word} {s t : State} {r : Reply} (h : plantOneShot a s = .next (t, r)) :
    t.guest = s.guest := by
  obtain ⟨-, he⟩ | ⟨-, he⟩ := plantOneShot_eq a s <;> rw [he] at h <;> cases h
  rfl

theorem stepInto_guest {s t : State} {r : Reply} (h : stepInto s = .next (t, r)) : t.guest = s.guest := by
  unfold stepInto at h
  split at h
  · cases h; rfl
  · exact plantOneShot_guest h

theorem stepOut_guest {s t : State} {r : Reply} (h : stepOut s = .next (t, r)) : t.guest = s.guest := by
  unfold stepOut at h
  split at h
  · cases h; rfl
  · exact plantOneShot_guest h

/-! ### The setters -/

/-- Only a press ends the wait: a release is noted in the keypad alone. -/
theorem setKeyState_release_halted {k : Nat} {s t : State} {r : Reply} (h : setKeyState k false s = .next (t, r)) :
    t.guest.halted = s.guest.halted := by
  unfold setKeyState at h
  split at h
  · cases h
    rw [notifyKey_notes _ (.inl rfl)]
  · cases h

theorem setPc_halted {v : Nat} {s t : State} {r : Reply} (h : setPc v s = .next (t, r)) :
    t.guest.halted = s.guest.halted := by
  unfold setPc at h
  split at h <;> cases h <;> rfl

/-! ### Every command -/

/-- No command but a press, a reset or a program load ends the wait. -/
theorem runCommand_keeps_halted {c : Command} {s t : State} {r : Reply} (hs : s.guest.halted = true)
    (hpress : ∀ k, c ≠ .setKeyState k true) (hreset : c ≠ .reset) (hload : ∀ bytes, c ≠ .loadProgram bytes)
    (h : runCommand c s = .next (t, r)) : t.guest.halted = true := by
  cases c with
  | reset => exact absurd rfl hreset
  | loadProgram bytes => exact absurd rfl (hload bytes)
  | setKeyState k pressed =>
    cases pressed with
    | true => exact absurd rfl (hpress k)
    | false => exact (setKeyState_release_halted h).trans hs
  | step =>
    obtain ⟨hstep, -⟩ := withOutcome_next h
    exact orchStep_keeps_halted (s := s.beginCommand) hs hstep
  | runForOneFrame =>
    obtain ⟨hsteps, -⟩ := withOutcome_next h
    exact runSteps_keeps_halted _ (s := s.beginCommand) hs hsteps
  | configureTiming ips fps => rw [configureTiming_guest h, hs]
  | bpAdd a d => rw [bpAdd_guest h, hs]
  | bpRemove a => cases h; exact hs
  | bpClear => cases h; exact hs
  | stepInto => rw [stepInto_guest h, hs]
  | stepOver => rw [plantOneShot_guest h, hs]
  | stepOut => rw [stepOut_guest h, hs]
  | setPc v => exact (setPc_halted h).trans hs
  | setDelayTimer v => cases h; exact hs

/-- Settles O11: the engine step's waiting case, and `halted` followed through every other command. -/
theorem aKeyWaitEndsOnlyByAPressOrAReset : Obligations.AKeyWaitEndsOnlyByAPressOrAReset :=
  ⟨fun _ hs => engineStep_halted hs,
    fun _ _ _ _ hs hpress hreset hload h => runCommand_keeps_halted hs hpress hreset hload h⟩

end Sys2Proof.Machine
end

section
/-! Control transfer (41_control_transfer.md R60 to R66): what the stack pointer is when its integer is known, what `RET`
and `CALL` do at each value of it, and where a skip goes. -/

namespace Sys2Proof.Machine

/-! ### The stack pointer and its integer (10_state.md R9) -/

theorem toInt_eq_neg_one_iff (p : StackPtr) : p.toInt = -1 ↔ p = .empty := by
  cases p with
  | empty => simp [StackPtr.toInt]
  | top k => simp [StackPtr.toInt]

theorem eq_top_of_toInt_nonneg {p : StackPtr} (h : 0 ≤ p.toInt) : ∃ k, p = .top k := by
  cases p with
  | empty => exact absurd h (by decide)
  | top k => exact ⟨k, rfl⟩

theorem toInt_eq_fifteen_iff (p : StackPtr) : p.toInt = 15 ↔ p = .top 15 := by
  cases p with
  | empty => decide
  | top k => simp only [StackPtr.toInt, StackPtr.top.injEq, Fin.ext_iff]; omega

/-! ### `RET` (R60) -/

theorem exec_ret_empty {s : State} (h : s.guest.sp = .empty) :
    exec .ret s = .next { s with outcome := .fault .stackUnderflow } := by
  simp only [exec, execRet, h, raise_eq]

theorem exec_ret_top {s : State} {k : Fin 16} (h : s.guest.sp = .top k) :
    ∃ sp, sp.toInt = (k.val : Int) - 1 ∧
      exec .ret s = .next { s with guest := { s.guest with sp := sp, pc := s.guest.slot k.val }, outcome := .success } := by
  refine ⟨if hk : k.val = 0 then .empty else .top ⟨k.val - 1, by omega⟩, ?_, ?_⟩
  · split <;> simp only [StackPtr.toInt] <;> omega
  · simp only [exec, execRet, h, succeedAt_eq, slot_of_lt _ k.isLt, Fin.getElem_fin]

/-! ### `CALL` (R62) -/

theorem exec_call_full (a : Word) {s : State} (h : s.guest.sp = .top 15) :
    exec (.call a) s = .next { s with outcome := .fault .stackOverflow } := by
  simp [exec, execCall, h, raise_eq]

/-- Below a full stack, a `CALL` pushes onto the slot one above the top, which is slot 0 when the stack is empty. -/
theorem exec_call_push (a : Word) {s : State} (h : s.guest.sp.toInt < 15) :
    ∃ j : Fin 16, (j.val : Int) = s.guest.sp.toInt + 1 ∧
      exec (.call a) s =
        .next { s with guest := { s.guest.push j (s.guest.pc + 2) with pc := a }, outcome := .success } := by
  cases hsp : s.guest.sp with
  | empty => exact ⟨0, rfl, by simp only [exec, execCall, hsp, succeedAt_eq]⟩
  | top k =>
    have hk : k.val < 15 := by rw [hsp] at h; simp only [StackPtr.toInt] at h; omega
    exact ⟨⟨k.val + 1, by omega⟩, by simp [StackPtr.toInt],
      by simp only [exec, execCall, hsp, dif_pos hk, succeedAt_eq]⟩

/-- Settles O22: `RET` by the stack pointer's constructor; the state after a `CALL` is the one after the push, and the
slots after it are those of a push. -/
theorem callPushesAndReturnPops : Obligations.CallPushesAndReturnPops := by
  intro s
  refine ⟨fun h => exec_ret_empty ((toInt_eq_neg_one_iff _).mp h), fun h => ?_,
    fun a h => exec_call_full a ((toInt_eq_fifteen_iff _).mp h), fun a h => ?_⟩
  · obtain ⟨k, hk⟩ := eq_top_of_toInt_nonneg h
    rw [hk]
    exact exec_ret_top hk
  · obtain ⟨j, hj, he⟩ := exec_call_push a h
    rw [← hj, Int.toNat_natCast]
    exact ⟨_, he, rfl, rfl, slot_push_same s.guest j _, fun k hk => slot_push_other s.guest j _ hk⟩

/-! ### `JP` (R61) -/

/-- Settles O24: a jump is the committing end with the address as `next_pc`. -/
theorem jumpGoesToItsAddress : Obligations.JumpGoesToItsAddress :=
  fun a s => succeedAt_eq s s.guest a

/-! ### The skips (R63 to R66) -/

/-- `s` after an instruction that succeeded and did nothing but move `pc` on by `d`. -/
def State.advance (s : State) (d : Word) : State :=
  { s with guest := { s.guest with pc := s.guest.pc + d }, outcome := .success }

/-- A skip that asks for equal bytes, the question put to their numbers. -/
theorem succeedSkip_eq_byte (s : State) (a b : Byte) :
    succeedSkip s (decide (a = b)) = .next (if a.toNat = b.toNat then s.advance 4 else s.advance 2) := by
  by_cases h : a = b
  · simp [succeedSkip_eq, h, State.advance]
  · simp [succeedSkip_eq, h, BitVec.toNat_inj, State.advance]

theorem succeedSkip_ne_byte (s : State) (a b : Byte) :
    succeedSkip s (decide (a ≠ b)) = .next (if a.toNat = b.toNat then s.advance 2 else s.advance 4) := by
  by_cases h : a = b
  · simp [succeedSkip_eq, h, State.advance]
  · simp [succeedSkip_eq, h, BitVec.toNat_inj, State.advance]

theorem exec_seReg (x y : Reg) (s : State) : exec (.seReg x y) s =
    .next (if (s.guest.getV x).toNat = (s.guest.getV y).toNat then s.advance 4 else s.advance 2) :=
  succeedSkip_eq_byte s _ _

theorem exec_sneReg (x y : Reg) (s : State) : exec (.sneReg x y) s =
    .next (if (s.guest.getV x).toNat = (s.guest.getV y).toNat then s.advance 2 else s.advance 4) :=
  succeedSkip_ne_byte s _ _

/-- Settles O26: each skip compares two bytes; a register is equal to itself. -/
theorem skipsCompareAndAdvance : Obligations.SkipsCompareAndAdvance := by
  intro x y k s
  have hse : exec (.seReg x x) s = .next (s.advance 4) := by rw [exec_seReg, if_pos rfl]
  have hsne : exec (.sneReg x x) s = .next (s.advance 2) := by rw [exec_sneReg, if_pos rfl]
  exact ⟨succeedSkip_eq_byte s _ k, succeedSkip_ne_byte s _ k, exec_seReg x y s, exec_sneReg x y s, hse, hsne⟩

end Sys2Proof.Machine
end

section
/-! Register loads (42_load_alu.md R69, R71): the committing end of an instruction that writes one register. -/

namespace Sys2Proof.Machine

/-- An instruction that succeeds with `V[x]` set to `v` changes `V[x]` alone and leaves `v` there, also when `x = 15`. -/
theorem succeed_setV (s : State) (x : Reg) (v : Byte) :
    ∃ t, succeed s (s.guest.setV x v) = .next t ∧ ChangesOnlyV s t (s.guest.pc + 2) (· = x) ∧ t.guest.getV x = v :=
  ⟨_, succeed_eq s _, ⟨rfl, fun _ hr => getV_setV_other s.guest v hr⟩, getV_setV_same s.guest x v⟩

/-- Settles O28: both loads end in one register write, of the immediate and of `V[y]` as it was before. -/
theorem loadsOfARegisterWriteOnlyIt : Obligations.LoadsOfARegisterWriteOnlyIt :=
  fun x y k s => ⟨succeed_setV s x k, succeed_setV s x (s.guest.getV y)⟩

end Sys2Proof.Machine
end

section
/-! The index register and memory (43_index_memory.md R82 to R87). -/

namespace Sys2Proof.Machine

/-- Settles O34: `LD I` is the committing end of an instruction, with `I` as its one guest write. -/
theorem loadIndexWritesItsAddress : Obligations.LoadIndexWritesItsAddress :=
  fun a s => succeed_eq s { s.guest with I := a }

end Sys2Proof.Machine
end

section
/-! Display (44_display.md R89). -/

namespace Sys2Proof.Machine

theorem exec_cls (s : State) : exec .cls s =
    .next { s with guest := { s.guest with fb := Framebuffer.blank, pc := s.guest.pc + 2 }, outcome := .success } :=
  succeed_eq s { s.guest with fb := Framebuffer.blank }

/-- Settles O41: the blank framebuffer is the one guest write of `CLS`, and it has no cell on. -/
theorem clearScreenTurnsEveryCellOff : Obligations.ClearScreenTurnsEveryCellOff :=
  fun s => ⟨_, exec_cls s, rfl, pixel_blank⟩

end Sys2Proof.Machine
end

section
/-! Keypad and timers (45_keypad_timers.md R91 to R96): the two key skips, what a tick does with the tone, and that an
instruction which does not write `ST` commutes with a change of it. -/

namespace Sys2Proof.Machine

/-! ### The key skips (R91, R92) -/

theorem succeedSkip_eq_advance (s : State) (b : Bool) :
    succeedSkip s b = .next (s.advance (if b = true then 4 else 2)) := by
  cases b <;> rfl

theorem exec_skp_invalidKey {x : Reg} {s : State} (h : 15 < (s.guest.getV x).toNat) :
    exec (.skp x) s = .next { s with outcome := .fault .invalidKey } := by
  simp only [exec, execSkp, keyIndex_of_ge h, raise_eq]

theorem exec_sknp_invalidKey {x : Reg} {s : State} (h : 15 < (s.guest.getV x).toNat) :
    exec (.sknp x) s = .next { s with outcome := .fault .invalidKey } := by
  simp only [exec, execSknp, keyIndex_of_ge h, raise_eq]

theorem exec_skp_of_lt {x : Reg} {s : State} (h : (s.guest.getV x).toNat < 16) :
    exec (.skp x) s = .next (s.advance (if s.guest.key[(s.guest.getV x).toNat] = true then 4 else 2)) := by
  simp only [exec, execSkp, keyIndex_of_lt h, succeedSkip_eq_advance, Fin.getElem_fin]

theorem exec_sknp_of_lt {x : Reg} {s : State} (h : (s.guest.getV x).toNat < 16) :
    exec (.sknp x) s = .next (s.advance (if s.guest.key[(s.guest.getV x).toNat] = true then 2 else 4)) := by
  simp only [exec, execSknp, keyIndex_of_lt h, succeedSkip_eq_advance, Fin.getElem_fin]
  cases s.guest.key[(s.guest.getV x).toNat] <;> rfl

/-- Settles O27: the register's whole value is a key index or it is not, before any key is looked at. -/
theorem keySkipsTestTheKeyTheyName : Obligations.KeySkipsTestTheKeyTheyName :=
  fun _ _ => ⟨fun h => ⟨exec_skp_invalidKey h, exec_sknp_invalidKey h⟩,
    fun h => ⟨exec_skp_of_lt h, exec_sknp_of_lt h⟩⟩

/-! ### The tick and the tone (R96) -/

theorem tick_clears_tone {s : State} (h : s.guest.ST = 0) : (tick s).orch.emittingTone = false := by
  rw [tick_emittingTone, h]; rfl

theorem tick_events_eq (s : State) :
    (tick s).events = s.events ++ (if s.toneStarts = true then [.toneRequest (toneDurationMs s.guest.ST)] else []) := rfl

theorem tick_events_of_emitting {s : State} (h : s.orch.emittingTone = true) : (tick s).events = s.events := by
  have hstart : ¬ s.toneStarts = true := by simp [toneStarts_iff, h]
  rw [tick_events_eq, if_neg hstart, List.append_nil]

theorem tick_events_of_start {s : State} (hst : s.guest.ST ≠ 0) (h : s.orch.emittingTone = false) :
    (tick s).events = s.events ++ [.toneRequest (toneDurationMs s.guest.ST)] := by
  have hpos : s.guest.ST.toNat > 0 := Nat.pos_of_ne_zero fun h0 => hst (BitVec.eq_of_toNat_eq h0)
  rw [tick_events_eq, if_pos ((toneStarts_iff s).mpr ⟨hpos, h⟩)]

/-! ### No instruction reads `ST` (10_state.md R11, R96) -/

/-- `s` with another sound timer. -/
def State.withST (s : State) (v : Byte) : State := { s with guest := { s.guest with ST := v } }

/-- What an instruction answers, with another sound timer in its next state. -/
def resultWithST (v : Byte) : Result → Result
  | .next t    => .next (t.withST v)
  | .fault f   => .fault f
  | .refused r => .refused r

section SoundTimer
variable (s : State) (v : Byte)

theorem execRet_withST : execRet (s.withST v) = resultWithST v (execRet s) := by
  have hsp : (s.withST v).guest.sp = s.guest.sp := rfl
  cases h : s.guest.sp <;> simp only [execRet, hsp, h] <;> rfl

theorem execCall_withST (a : Word) : execCall a (s.withST v) = resultWithST v (execCall a s) := by
  have hsp : (s.withST v).guest.sp = s.guest.sp := rfl
  cases h : s.guest.sp with
  | empty => simp only [execCall, hsp, h]; rfl
  | top k =>
    simp only [execCall, hsp, h]
    split <;> rfl

theorem exec_skp_withST (x : Reg) : exec (.skp x) (s.withST v) = resultWithST v (exec (.skp x) s) := by
  by_cases h : (s.guest.getV x).toNat < 16
  · rw [exec_skp_of_lt h, exec_skp_of_lt (s := s.withST v) h]; rfl
  · have hge : 15 < (s.guest.getV x).toNat := by omega
    rw [exec_skp_invalidKey hge, exec_skp_invalidKey (s := s.withST v) hge]; rfl

theorem exec_sknp_withST (x : Reg) : exec (.sknp x) (s.withST v) = resultWithST v (exec (.sknp x) s) := by
  by_cases h : (s.guest.getV x).toNat < 16
  · rw [exec_sknp_of_lt h, exec_sknp_of_lt (s := s.withST v) h]; rfl
  · have hge : 15 < (s.guest.getV x).toNat := by omega
    rw [exec_sknp_invalidKey hge, exec_sknp_invalidKey (s := s.withST v) hge]; rfl

/-- Both runs draw the same rows: the drawing takes memory, `I`, the framebuffer and two registers. -/
theorem execDrw_withST (x y : Reg) (n : Nat) : execDrw x y n (s.withST v) = resultWithST v (execDrw x y n s) := by
  rw [execDrw, execDrw, apply_ite (resultWithST v)]; rfl

theorem storeAtI_withST (bs : List Byte) (n : Nat) :
    storeAtI (s.withST v) bs n = resultWithST v (storeAtI s bs n) := by
  rw [storeAtI, storeAtI, apply_ite (resultWithST v)]; rfl

theorem execLoadRegs_withST (x : Reg) : execLoadRegs x (s.withST v) = resultWithST v (execLoadRegs x s) := by
  rw [execLoadRegs, execLoadRegs, apply_ite (resultWithST v)]; rfl

/-- The instructions with a guard, by the lemma of their operation; every other one ends in a single state, whose `ST` is
the one it was given. -/
theorem exec_withST {i : Instr} (h : ∀ y, i ≠ .ldSTVx y) : exec i (s.withST v) = resultWithST v (exec i s) := by
  cases i with
  | ldSTVx y => exact absurd rfl (h y)
  | ret => exact execRet_withST s v
  | call a => exact execCall_withST s v a
  | drw x y n => exact execDrw_withST s v x y n
  | skp x => exact exec_skp_withST s v x
  | sknp x => exact exec_sknp_withST s v x
  | ldB x => exact storeAtI_withST s v _ _
  | storeRegs x => exact storeAtI_withST s v _ _
  | loadRegs x => exact execLoadRegs_withST s v x
  | _ => rfl

end SoundTimer

/-! ### The timer moves (R93, R95, R96) -/

theorem exec_ldDTVx (x : Reg) (s : State) : exec (.ldDTVx x) s =
    .next { s with guest := { s.guest with DT := s.guest.getV x, pc := s.guest.pc + 2 }, outcome := .success } :=
  succeed_eq s { s.guest with DT := s.guest.getV x }

theorem exec_ldSTVx (x : Reg) (s : State) : exec (.ldSTVx x) s =
    .next { s with guest := { s.guest with ST := s.guest.getV x, pc := s.guest.pc + 2 }, outcome := .success } :=
  succeed_eq s { s.guest with ST := s.guest.getV x }

/-- Settles O45: each move is a committing end with one guest write; the tick's laws at the `ST` that `LD ST, Vx` left;
a change of `ST` passes through every other instruction. -/
theorem timerMovesCopyOneByte : Obligations.TimerMovesCopyOneByte := by
  intro x s
  refine ⟨succeed_setV s x s.guest.DT, exec_ldDTVx x s, ⟨_, exec_ldSTVx x s, rfl, ?_, ?_, ?_⟩, ?_⟩
  · exact fun hzero => tick_clears_tone hzero
  · exact fun htone => tick_events_of_emitting htone
  · exact fun hne hquiet => ⟨_, tick_events_of_start hne hquiet⟩
  · intro i t v hi ht
    exact (exec_withST s v hi).trans (congrArg (resultWithST v) ht)

end Sys2Proof.Machine
end

section
/-! Exceptions (60_exceptions.md R120): the engine step at a word that selects no instruction. -/

namespace Sys2Proof.Machine

theorem engineStep_illegal {s : State} {e : Reject} (h : s.guest.halted = false) (hp : s.guest.pc.toNat ≤ 4094)
    (hd : decodeWord s.guest.fetch = .error e) :
    engineStep s = .next { s with outcome := .fault .invalidInstruction } :=
  (engineStep_execute h hp).trans (executeWord_error hd s)

/-- `0x0000` belongs to group 0 and has neither of that group's two secondary opcodes (30_encoding.md R46, R50). -/
theorem decodeWord_zero : decodeWord 0x0000 = .error (.illegalGroup0 0) := by decide

/-- Settles O8: the two bytes at `pc` are the fetched word, and the executor raises before any write when it does not
decode. -/
theorem anIllegalWordRaisesInvalidInstruction : Obligations.AnIllegalWordRaisesInvalidInstruction :=
  ⟨fun _ h hp ⟨_, hd⟩ => engineStep_illegal h hp hd, _, decodeWord_zero⟩

end Sys2Proof.Machine
end

section
/-! The opcode map (30_encoding.md sections 1 to 3). One lemma says everything the decoder answers: a word decodes to
`i` exactly when it selects the row of `i` and the operands of `i` are the word's fields. The round trips, the
agreement with the table and the list of illegal words are read off it. -/

namespace Sys2Proof

/-! ### A word under a mask -/

/-- A mask that clears the bits from `a` up to `b` and keeps the others: what is left of a word, as a number. -/
theorem toNat_and_clearing {m : Word} (a b : Nat) (hab : a ≤ b)
    (hm : ∀ j < 16, m.getLsbD j = !decide (a ≤ j ∧ j < b)) (w : Word) :
    (w &&& m).toNat = 2 ^ b * (w.toNat / 2 ^ b) + w.toNat % 2 ^ a := by
  have hlt : w.toNat % 2 ^ a < 2 ^ b :=
    Nat.lt_of_lt_of_le (Nat.mod_lt _ (Nat.two_pow_pos a)) (Nat.pow_le_pow_right (by decide) hab)
  apply Nat.eq_of_testBit_eq
  intro j
  rw [Nat.testBit_two_pow_mul_add _ hlt, BitVec.toNat_and, Nat.testBit_and, Nat.testBit_mod_two_pow,
    Nat.testBit_div_two_pow]
  by_cases hj : j < 16
  · have hbit : m.toNat.testBit j = !decide (a ≤ j ∧ j < b) := hm j hj
    rw [hbit]
    by_cases hjb : j < b
    · by_cases hja : j < a <;> simp [hjb, hja]; omega
    · simp [hjb, show j - b + b = j by omega]
  · have hw : ∀ i, 16 ≤ i → w.toNat.testBit i = false := fun i hi => BitVec.getLsbD_of_ge w i hi
    split
    · simp [hw j (by omega)]
    · simp [hw j (by omega), hw (j - b + b) (by omega)]

/-- The rows that a group alone selects. -/
theorem and_groupMask_eq_iff {p : Word} (hp : p.toNat % 4096 = 0) (w : Word) :
    w &&& 0xF000 = p ↔ (fieldsOf w).group.toNat = p.toNat / 4096 := by
  rw [← BitVec.toNat_inj, toNat_and_clearing 0 12 (by decide) (by decide), group_toNat]
  omega

/-- The rows that a group and a nibble select. -/
theorem and_nibbleMask_eq_iff {p : Word} (hp : p.toNat % 4096 < 16) (w : Word) :
    w &&& 0xF00F = p ↔
      (fieldsOf w).group.toNat = p.toNat / 4096 ∧ (fieldsOf w).nibble.toNat = p.toNat % 16 := by
  rw [← BitVec.toNat_inj, toNat_and_clearing 4 12 (by decide) (by decide), group_toNat, nibble_toNat]
  omega

/-- The rows that a group and a byte select. -/
theorem and_byteMask_eq_iff {p : Word} (hp : p.toNat % 4096 < 256) (w : Word) :
    w &&& 0xF0FF = p ↔
      (fieldsOf w).group.toNat = p.toNat / 4096 ∧ (fieldsOf w).byte.toNat = p.toNat % 256 := by
  rw [← BitVec.toNat_inj, toNat_and_clearing 8 12 (by decide) (by decide), group_toNat, byte_toNat]
  omega

/-! ### Operands from fields (R43) -/

/-- The instruction of the same row whose operands are the fields `f`. -/
def Instr.withOperandsOf (f : Fields) : Instr → Instr
  | .cls           => .cls
  | .ret           => .ret
  | .jp _          => .jp (addrOf f)
  | .call _        => .call (addrOf f)
  | .seImm _ _     => .seImm (regOf f.x) f.byte
  | .sneImm _ _    => .sneImm (regOf f.x) f.byte
  | .seReg _ _     => .seReg (regOf f.x) (regOf f.y)
  | .ldImm _ _     => .ldImm (regOf f.x) f.byte
  | .addImm _ _    => .addImm (regOf f.x) f.byte
  | .ldReg _ _     => .ldReg (regOf f.x) (regOf f.y)
  | .orReg _ _     => .orReg (regOf f.x) (regOf f.y)
  | .andReg _ _    => .andReg (regOf f.x) (regOf f.y)
  | .xorReg _ _    => .xorReg (regOf f.x) (regOf f.y)
  | .addReg _ _    => .addReg (regOf f.x) (regOf f.y)
  | .subReg _ _    => .subReg (regOf f.x) (regOf f.y)
  | .shr _         => .shr (regOf f.x)
  | .subnReg _ _   => .subnReg (regOf f.x) (regOf f.y)
  | .shl _         => .shl (regOf f.x)
  | .sneReg _ _    => .sneReg (regOf f.x) (regOf f.y)
  | .ldI _         => .ldI (addrOf f)
  | .jpV0 _        => .jpV0 (addrOf f)
  | .rnd _ _       => .rnd (regOf f.x) f.byte
  | .drw _ _ _     => .drw (regOf f.x) (regOf f.y) f.nibble.toNat
  | .skp _         => .skp (regOf f.x)
  | .sknp _        => .sknp (regOf f.x)
  | .ldVxDT _      => .ldVxDT (regOf f.x)
  | .ldVxK _       => .ldVxK (regOf f.x)
  | .ldDTVx _      => .ldDTVx (regOf f.x)
  | .ldSTVx _      => .ldSTVx (regOf f.x)
  | .addI _        => .addI (regOf f.x)
  | .ldF _         => .ldF (regOf f.x)
  | .ldB _         => .ldB (regOf f.x)
  | .storeRegs _   => .storeRegs (regOf f.x)
  | .loadRegs _    => .loadRegs (regOf f.x)

@[simp] theorem withOperandsOf_row (f : Fields) (i : Instr) : (i.withOperandsOf f).row = i.row := by
  cases i <;> rfl

theorem addressFits_addrOf (w : Word) : addressFits (addrOf (fieldsOf w)) = true := by
  rw [addressFits, decide_eq_true_eq, addrOf_toNat]; omega

theorem nibbleFits_nibble (f : Fields) : nibbleFits f.nibble.toNat = true := by
  rw [nibbleFits, decide_eq_true_eq]; have := f.nibble.isLt; omega

/-- Operands read from a word fit their fields. -/
theorem withOperandsOf_wf (w : Word) (i : Instr) : (i.withOperandsOf (fieldsOf w)).wf = true := by
  cases i with
  | jp | call | ldI | jpV0 => exact addressFits_addrOf w
  | drw => exact nibbleFits_nibble _
  | _ => rfl

/-! ### What the decoder answers -/

/-- A word that selects the row of `i` decodes to the instruction of that row with the word's operands. -/
theorem decodeWord_of_selects {w : Word} {i : Instr} (h : i.row.selects w = true) :
    decodeWord w = .ok (i.withOperandsOf (fieldsOf w)) := by
  rw [Row.selects, decide_eq_true_eq] at h
  cases i with simp only [Instr.row] at h
  | jp | call | seImm | sneImm | seReg | ldImm | addImm | sneReg | ldI | jpV0 | rnd | drw =>
    have hg := (and_groupMask_eq_iff (by decide) w).mp h
    simp [decodeWord, dispatch, Instr.withOperandsOf, hg]
  | ldReg | orReg | andReg | xorReg | addReg | subReg | shr | subnReg | shl =>
    obtain ⟨hg, hn⟩ := (and_nibbleMask_eq_iff (by decide) w).mp h
    simp [decodeWord, dispatch, dispatchGroup8, Instr.withOperandsOf, hg, hn]
  | cls | ret | skp | sknp | ldVxDT | ldVxK | ldDTVx | ldSTVx | addI | ldF | ldB | storeRegs | loadRegs =>
    obtain ⟨hg, hb⟩ := (and_byteMask_eq_iff (by decide) w).mp h
    simp [decodeWord, dispatch, dispatchGroup0, dispatchGroupE, dispatchGroupF, Instr.withOperandsOf, hg, hb]

/-- The groups 0, E and F select by their byte (R46, R48). -/
theorem dispatchGroup0_ok {f : Fields} {i : Instr} (h : dispatchGroup0 f = .ok i) :
    i.row.mask = 0xF0FF ∧ i.row.pattern.toNat = f.byte.toNat := by
  unfold dispatchGroup0 at h
  split at h <;> cases h <;> exact ⟨rfl, .symm ‹_›⟩

theorem dispatchGroupE_ok {f : Fields} {i : Instr} (h : dispatchGroupE f = .ok i) :
    i.row.mask = 0xF0FF ∧ i.row.pattern.toNat = 0xE000 + f.byte.toNat := by
  unfold dispatchGroupE at h
  split at h <;> cases h <;> exact ⟨rfl, .symm (congrArg (0xE000 + ·) ‹_›)⟩

theorem dispatchGroupF_ok {f : Fields} {i : Instr} (h : dispatchGroupF f = .ok i) :
    i.row.mask = 0xF0FF ∧ i.row.pattern.toNat = 0xF000 + f.byte.toNat := by
  unfold dispatchGroupF at h
  split at h <;> cases h <;> exact ⟨rfl, .symm (congrArg (0xF000 + ·) ‹_›)⟩

/-- Group 8 selects by its nibble (R47). -/
theorem dispatchGroup8_ok {f : Fields} {i : Instr} (h : dispatchGroup8 f = .ok i) :
    i.row.mask = 0xF00F ∧ i.row.pattern.toNat = 0x8000 + f.nibble.toNat := by
  unfold dispatchGroup8 at h
  split at h <;> cases h <;> exact ⟨rfl, .symm (congrArg (0x8000 + ·) ‹_›)⟩

/-- A word that decodes to `i` selects the row of `i`. -/
theorem selects_of_decodeWord {w : Word} {i : Instr} (h : decodeWord w = .ok i) :
    i.row.selects w = true := by
  have hgroup := (fieldsOf w).group.isLt
  have hbyte := (fieldsOf w).byte.isLt
  have hnibble := (fieldsOf w).nibble.isLt
  rw [Row.selects, decide_eq_true_eq]
  unfold decodeWord dispatch at h
  split at h
  case h_1 hg =>
    obtain ⟨hm, hp⟩ := dispatchGroup0_ok h
    rw [hm, and_byteMask_eq_iff (by omega)]; omega
  case h_9 hg =>
    obtain ⟨hm, hp⟩ := dispatchGroup8_ok h
    rw [hm, and_nibbleMask_eq_iff (by omega)]; omega
  case h_15 hg =>
    obtain ⟨hm, hp⟩ := dispatchGroupE_ok h
    rw [hm, and_byteMask_eq_iff (by omega)]; omega
  case h_16 =>
    have hg : (fieldsOf w).group.toNat = 15 := by simp only [imp_false] at *; omega
    obtain ⟨hm, hp⟩ := dispatchGroupF_ok h
    rw [hm, and_byteMask_eq_iff (by omega)]; omega
  all_goals
    cases h
    simp only [Instr.row]
    exact (and_groupMask_eq_iff (by decide) w).mpr ‹_›

/-- Everything the decoder answers. -/
theorem decodeWord_eq_ok_iff (w : Word) (i : Instr) :
    decodeWord w = .ok i ↔ i.row.selects w = true ∧ i.withOperandsOf (fieldsOf w) = i := by
  constructor
  · intro h
    have hs := selects_of_decodeWord h
    exact ⟨hs, Except.ok.inj ((decodeWord_of_selects hs).symm.trans h)⟩
  · rintro ⟨hs, ho⟩
    rw [decodeWord_of_selects hs, ho]

/-! ### The two round trips -/

/-- The word of a well-formed instruction selects the instruction's row and holds its operands. -/
theorem selects_encode {i : Instr} (h : i.wf = true) :
    i.row.selects (encode i) = true ∧ i.withOperandsOf (fieldsOf (encode i)) = i := by
  rw [Row.selects, decide_eq_true_eq]
  cases i with simp only [encode, Instr.row, Instr.withOperandsOf]
  | cls | ret => decide
  | jp a | call a | ldI a | jpV0 a =>
    have ha : a.toNat ≤ 4095 := of_decide_eq_true h
    rw [and_groupMask_eq_iff (by decide)]
    simp (disch := omega) [fields_encNNN]
  | seImm x k | sneImm x k | ldImm x k | addImm x k | rnd x k =>
    rw [and_groupMask_eq_iff (by decide)]
    simp (disch := omega) [fields_encXKK]
  | seReg x y | sneReg x y =>
    rw [and_groupMask_eq_iff (by decide)]
    simp (disch := omega) [fields_encXY]
  | drw x y n =>
    have hn : n ≤ 15 := of_decide_eq_true h
    rw [and_groupMask_eq_iff (by decide)]
    simp (disch := omega) [fields_encXYN]
  | ldReg x y | orReg x y | andReg x y | xorReg x y | addReg x y | subReg x y | subnReg x y =>
    rw [and_nibbleMask_eq_iff (by decide)]
    simp (disch := omega) [fields_encXY]
  | shr x | shl x =>
    rw [and_nibbleMask_eq_iff (by decide)]
    simp (disch := omega) [fields_encX]
  | skp | sknp | ldVxDT | ldVxK | ldDTVx | ldSTVx | addI | ldF | ldB | storeRegs | loadRegs =>
    rw [and_byteMask_eq_iff (by decide)]
    simp (disch := omega) [fields_encX]

theorem decodeWord_encode {i : Instr} (h : i.wf = true) : decodeWord (encode i) = .ok i :=
  (decodeWord_eq_ok_iff _ _).mpr (selects_encode h)

/-- Settles O3: the word of an instruction selects its row and holds its operands, and a word's own two bytes are the
word again. -/
theorem decodingAnEncodedInstructionGivesItBack : Obligations.DecodingAnEncodedInstructionGivesItBack := by
  intro i h
  refine ⟨decodeWord_encode h, fun rest => ?_⟩
  rw [decode_bytesOfWord, decodeWord_encode h]
  rfl

/-- The word with the operands of `w` in a row that `w` selects is `w` without the bits the row ignores. -/
theorem encode_withOperandsOf {w : Word} {i : Instr} (h : i.row.selects w = true) :
    encode (i.withOperandsOf (fieldsOf w)) = w &&& ~~~ i.ignoredBits := by
  rw [Row.selects, decide_eq_true_eq] at h
  have hk := byte_toNat w
  have hn := nibble_toNat w
  have hx := x_toNat w
  have hy := y_toNat w
  have ha := addrOf_toNat w
  apply BitVec.eq_of_toNat_eq
  cases i with simp only [encode, Instr.row, Instr.withOperandsOf, Instr.ignoredBits] at h ⊢
  | cls | ret =>
    rw [and_byteMask_eq_iff (by decide), group_toNat, byte_toNat] at h
    rw [toNat_and_clearing 8 12 (by decide) (by decide)]
    simp only [BitVec.reduceToNat, BitVec.toNat_ofNat] at h ⊢
    omega
  | jp | call | ldI | jpV0 =>
    rw [and_groupMask_eq_iff (by decide), group_toNat] at h
    rw [toNat_and_clearing 0 0 (by decide) (by decide), encNNN_toNat (by decide) (by decide) (by omega)]
    simp only [BitVec.reduceToNat] at h
    omega
  | seImm | sneImm | ldImm | addImm | rnd =>
    rw [and_groupMask_eq_iff (by decide), group_toNat] at h
    rw [toNat_and_clearing 0 0 (by decide) (by decide), encXKK_toNat _ _ (by decide), regOf_val]
    simp only [BitVec.reduceToNat] at h
    omega
  | seReg | sneReg =>
    rw [and_groupMask_eq_iff (by decide), group_toNat] at h
    rw [toNat_and_clearing 0 4 (by decide) (by decide), encXY_toNat _ _ (by decide), regOf_val, regOf_val]
    simp only [BitVec.reduceToNat] at h
    omega
  | drw =>
    rw [and_groupMask_eq_iff (by decide), group_toNat] at h
    rw [toNat_and_clearing 0 0 (by decide) (by decide), encXYN_toNat _ _ (by decide) (by omega), regOf_val, regOf_val]
    simp only [BitVec.reduceToNat] at h
    omega
  | ldReg | orReg | andReg | xorReg | addReg | subReg | subnReg =>
    rw [and_nibbleMask_eq_iff (by decide), group_toNat, nibble_toNat] at h
    rw [toNat_and_clearing 0 0 (by decide) (by decide), encXY_toNat _ _ (by decide), regOf_val, regOf_val]
    simp only [BitVec.reduceToNat] at h
    omega
  | shr | shl =>
    rw [and_nibbleMask_eq_iff (by decide), group_toNat, nibble_toNat] at h
    rw [toNat_and_clearing 4 8 (by decide) (by decide), encX_toNat _ (by decide), regOf_val]
    simp only [BitVec.reduceToNat] at h
    omega
  | skp | sknp | ldVxDT | ldVxK | ldDTVx | ldSTVx | addI | ldF | ldB | storeRegs | loadRegs =>
    rw [and_byteMask_eq_iff (by decide), group_toNat, byte_toNat] at h
    rw [toNat_and_clearing 0 0 (by decide) (by decide), encX_toNat _ (by decide), regOf_val]
    simp only [BitVec.reduceToNat] at h
    omega

/-- The row of every instruction stands in the table, and its mask looks at none of the bits the instruction ignores. -/
theorem row_wellMade : ∀ i : Instr, Laws.RowWellMade.Statement i
  | .cls => Laws.RowWellMade.cls
  | .ret => Laws.RowWellMade.ret
  | .jp a => Laws.RowWellMade.jp a
  | .call a => Laws.RowWellMade.call a
  | .seImm x k => Laws.RowWellMade.seImm x k
  | .sneImm x k => Laws.RowWellMade.sneImm x k
  | .seReg x y => Laws.RowWellMade.seReg x y
  | .ldImm x k => Laws.RowWellMade.ldImm x k
  | .addImm x k => Laws.RowWellMade.addImm x k
  | .ldReg x y => Laws.RowWellMade.ldReg x y
  | .orReg x y => Laws.RowWellMade.orReg x y
  | .andReg x y => Laws.RowWellMade.andReg x y
  | .xorReg x y => Laws.RowWellMade.xorReg x y
  | .addReg x y => Laws.RowWellMade.addReg x y
  | .subReg x y => Laws.RowWellMade.subReg x y
  | .shr x => Laws.RowWellMade.shr x
  | .subnReg x y => Laws.RowWellMade.subnReg x y
  | .shl x => Laws.RowWellMade.shl x
  | .sneReg x y => Laws.RowWellMade.sneReg x y
  | .ldI a => Laws.RowWellMade.ldI a
  | .jpV0 a => Laws.RowWellMade.jpV0 a
  | .rnd x k => Laws.RowWellMade.rnd x k
  | .drw x y n => Laws.RowWellMade.drw x y n
  | .skp x => Laws.RowWellMade.skp x
  | .sknp x => Laws.RowWellMade.sknp x
  | .ldVxDT x => Laws.RowWellMade.ldVxDT x
  | .ldVxK x => Laws.RowWellMade.ldVxK x
  | .ldDTVx x => Laws.RowWellMade.ldDTVx x
  | .ldSTVx x => Laws.RowWellMade.ldSTVx x
  | .addI x => Laws.RowWellMade.addI x
  | .ldF x => Laws.RowWellMade.ldF x
  | .ldB x => Laws.RowWellMade.ldB x
  | .storeRegs x => Laws.RowWellMade.storeRegs x
  | .loadRegs x => Laws.RowWellMade.loadRegs x

theorem row_mem_opcodeTable (i : Instr) : i.row ∈ opcodeTable := (row_wellMade i).1

/-- A mask that has no bit of `c` does not see whether the bits of `c` were cleared before. -/
theorem and_mask_of_cleared {m c : Word} (h : m &&& c = 0) (w : Word) : (w &&& ~~~ c) &&& m = w &&& m := by
  apply BitVec.eq_of_getLsbD_eq
  intro j hj
  have hbit : (m.getLsbD j && c.getLsbD j) = false := by
    rw [← BitVec.getLsbD_and, h]; exact BitVec.getLsbD_zero
  simp only [BitVec.getLsbD_and, BitVec.getLsbD_not, hj, decide_true, Bool.true_and]
  cases hm : m.getLsbD j with
  | false => simp
  | true => rw [hm, Bool.true_and] at hbit; simp [hbit]

/-- Whether a word selects a row does not depend on the bits the row's instruction ignores. -/
theorem selects_congr {v w : Word} {i : Instr} (h : v &&& ~~~ i.ignoredBits = w &&& ~~~ i.ignoredBits) :
    i.row.selects v = i.row.selects w := by
  have hmask := (row_wellMade i).2.2
  rw [Row.selects, Row.selects, ← and_mask_of_cleared hmask v, h, and_mask_of_cleared hmask w]

/-- Two words that agree but for the ignored bits of `i` give the row of `i` the same operands: both encode to the same
word, and an encoding is decoded back. -/
theorem withOperandsOf_congr {v w : Word} {i : Instr} (hw : i.row.selects w = true)
    (h : v &&& ~~~ i.ignoredBits = w &&& ~~~ i.ignoredBits) :
    i.withOperandsOf (fieldsOf v) = i.withOperandsOf (fieldsOf w) := by
  have henc : encode (i.withOperandsOf (fieldsOf v)) = encode (i.withOperandsOf (fieldsOf w)) := by
    rw [encode_withOperandsOf ((selects_congr h).trans hw), encode_withOperandsOf hw, h]
  have hdec := decodeWord_encode (withOperandsOf_wf v i)
  rw [henc, decodeWord_encode (withOperandsOf_wf w i)] at hdec
  exact (Except.ok.inj hdec).symm

/-- Settles O4: the decoded instruction is its row with the word's operands, and neither the row nor the operands see
the ignored bits. -/
theorem encodingADecodedWordLosesOnlyItsIgnoredBits : Obligations.EncodingADecodedWordLosesOnlyItsIgnoredBits := by
  intro w i h
  obtain ⟨hs, ho⟩ := (decodeWord_eq_ok_iff w i).mp h
  refine ⟨?_, ?_, fun v hv => ?_⟩
  · rw [← ho]; exact withOperandsOf_wf w i
  · rw [← encode_withOperandsOf hs, ho]
  · rw [decodeWord_of_selects ((selects_congr hv).trans hs), withOperandsOf_congr hs hv, ho]

/-! ### The table and the dispatch (R45) -/

/-- Every row of the table is the row of an instruction. -/
theorem exists_row_eq {r : Row} (h : r ∈ opcodeTable) : ∃ i : Instr, i.row = r := by
  obtain ⟨i, -, hi⟩ := List.mem_map.mp h
  exact ⟨i, hi⟩

theorem decodeWord_of_row_selects {w : Word} {r : Row} (hr : r ∈ opcodeTable) (h : r.selects w = true) :
    ∃ i, decodeWord w = .ok i ∧ i.row = r := by
  obtain ⟨i, rfl⟩ := exists_row_eq hr
  exact ⟨_, decodeWord_of_selects h, withOperandsOf_row _ i⟩

/-- Settles O5: a word that selected two rows would decode to an instruction of each. -/
theorem dispatchAgreesWithTheOpcodeTable : Obligations.DispatchAgreesWithTheOpcodeTable := by
  refine ⟨by decide, fun w i h => ⟨row_mem_opcodeTable i, selects_of_decodeWord h⟩,
    fun w r hr h => decodeWord_of_row_selects hr h, fun w r q hr hq hrw hqw => ?_⟩
  obtain ⟨i, hi, rfl⟩ := decodeWord_of_row_selects hr hrw
  obtain ⟨j, hj, rfl⟩ := decodeWord_of_row_selects hq hqw
  rw [Except.ok.inj (hi.symm.trans hj)]

/-! ### The illegal words (R50) -/

theorem dispatchGroup0_error_iff (f : Fields) :
    (∃ e, dispatchGroup0 f = .error e) ↔ f.byte.toNat ∉ [0xE0, 0xEE] := by
  unfold dispatchGroup0
  split <;> simp_all

theorem dispatchGroup8_error_iff (f : Fields) :
    (∃ e, dispatchGroup8 f = .error e) ↔ f.nibble.toNat ∈ [0x8, 0x9, 0xA, 0xB, 0xC, 0xD, 0xF] := by
  have := f.nibble.isLt
  unfold dispatchGroup8
  split <;> simp_all
  omega

theorem dispatchGroupE_error_iff (f : Fields) :
    (∃ e, dispatchGroupE f = .error e) ↔ f.byte.toNat ∉ [0x9E, 0xA1] := by
  unfold dispatchGroupE
  split <;> simp_all

theorem dispatchGroupF_error_iff (f : Fields) :
    (∃ e, dispatchGroupF f = .error e) ↔
      f.byte.toNat ∉ [0x07, 0x0A, 0x15, 0x18, 0x1E, 0x29, 0x33, 0x55, 0x65] := by
  unfold dispatchGroupF
  split <;> simp_all


/-- Group by group: a group without a secondary opcode has no illegal word. -/
theorem decodeWord_error_iff (w : Word) : (∃ e, decodeWord w = .error e) ↔ Machine.IllegalWord w := by
  have hgroup := (fieldsOf w).group.isLt
  unfold decodeWord dispatch Machine.IllegalWord
  rw [← group_toNat, ← byte_toNat, ← nibble_toNat]
  split
  case h_1 h0 => simp [h0, dispatchGroup0_error_iff]
  case h_9 h8 => simp [h8, dispatchGroup8_error_iff]
  case h_15 hE => simp [hE, dispatchGroupE_error_iff]
  case h_16 =>
    have hF : (fieldsOf w).group.toNat = 15 := by simp only [imp_false] at *; omega
    simp [hF, dispatchGroupF_error_iff]
  all_goals
    rename_i hg
    simp [hg]

/-- Settles O6: the words that no group's dispatch accepts. -/
theorem theIllegalWordsAreThoseTheSpecLists : Obligations.TheIllegalWordsAreThoseTheSpecLists :=
  decodeWord_error_iff

/-- Settles O2: twelve closed words, each run through the decoder. -/
theorem sampleWordsDecodeAsTheTableSays : Obligations.SampleWordsDecodeAsTheTableSays := by
  unfold Obligations.SampleWordsDecodeAsTheTableSays
  decide

end Sys2Proof
end

section
/-! Rules about every instruction (40_step.md; 60_exceptions.md section 4). Three lemmas say once what an instruction
can do: how it ends and where `pc` is then (`exec_ends`), which pieces of the state it writes (`exec_frame`), which
registers (`exec_getV`). -/

namespace Sys2Proof.Machine

/-! ### Everything a guarded instruction can do -/

theorem exec_ret_cases {s t : State} (h : exec .ret s = .next t) :
    t = { s with outcome := .fault .stackUnderflow } ∨
    ∃ k sp, s.guest.sp = .top k ∧ sp.toInt = (k.val : Int) - 1 ∧
      t = { s with guest := { s.guest with sp := sp, pc := s.guest.slot k.val }, outcome := .success } := by
  cases hsp : s.guest.sp with
  | empty => rw [exec_ret_empty hsp] at h; cases h; exact .inl rfl
  | top k =>
    obtain ⟨sp, hint, he⟩ := exec_ret_top hsp
    rw [he] at h; cases h
    exact .inr ⟨k, sp, rfl, hint, rfl⟩

/-- The stack is full, or a `CALL` has room. -/
theorem eq_top_fifteen_or_toInt_lt (p : StackPtr) : p = .top 15 ∨ p.toInt < 15 := by
  rw [← toInt_eq_fifteen_iff]
  cases p with
  | empty => decide
  | top k => simp only [StackPtr.toInt]; omega

theorem exec_call_cases {a : Word} {s t : State} (h : exec (.call a) s = .next t) :
    t = { s with outcome := .fault .stackOverflow } ∨
    ∃ j : Fin 16, (j.val : Int) = s.guest.sp.toInt + 1 ∧
      t = { s with guest := { s.guest.push j (s.guest.pc + 2) with pc := a }, outcome := .success } := by
  obtain hfull | hlt := eq_top_fifteen_or_toInt_lt s.guest.sp
  · rw [exec_call_full a hfull] at h; cases h; exact .inl rfl
  · obtain ⟨j, hj, he⟩ := exec_call_push a hlt
    rw [he] at h; cases h
    exact .inr ⟨j, hj, rfl⟩

theorem exec_skp_cases {x : Reg} {s t : State} (h : exec (.skp x) s = .next t) :
    t = { s with outcome := .fault .invalidKey } ∨
    ∃ hk : (s.guest.getV x).toNat < 16,
      t = s.advance (if s.guest.key[(s.guest.getV x).toNat] = true then 4 else 2) := by
  by_cases hk : (s.guest.getV x).toNat < 16
  · rw [exec_skp_of_lt hk] at h; cases h; exact .inr ⟨hk, rfl⟩
  · rw [exec_skp_invalidKey (by omega)] at h; cases h; exact .inl rfl

theorem exec_sknp_cases {x : Reg} {s t : State} (h : exec (.sknp x) s = .next t) :
    t = { s with outcome := .fault .invalidKey } ∨
    ∃ hk : (s.guest.getV x).toNat < 16,
      t = s.advance (if s.guest.key[(s.guest.getV x).toNat] = true then 2 else 4) := by
  by_cases hk : (s.guest.getV x).toNat < 16
  · rw [exec_sknp_of_lt hk] at h; cases h; exact .inr ⟨hk, rfl⟩
  · rw [exec_sknp_invalidKey (by omega)] at h; cases h; exact .inl rfl

theorem exec_loadRegs_fault {x : Reg} {s : State} (h : s.guest.effectiveAddress x.val > 4095) :
    exec (.loadRegs x) s = .next { s with outcome := .fault .invalidMemoryLocation } := by
  rw [exec, execLoadRegs, if_pos (by simpa [outOfMemory, Config.memTop] using h), raise_eq]

theorem exec_loadRegs_ok {x : Reg} {s : State} (h : s.guest.effectiveAddress x.val ≤ 4095) :
    exec (.loadRegs x) s =
      .next { s with
        guest   := { s.guest with
          V  := loadFrom s.guest.mem (s.guest.effectiveAddress 0) (x.val + 1) s.guest.V
          pc := s.guest.pc + 2 }
        outcome := .success } := by
  rw [exec, execLoadRegs, if_neg (by simpa [outOfMemory, Config.memTop] using h), succeed_eq]

theorem exec_loadRegs_cases {x : Reg} {s t : State} (h : exec (.loadRegs x) s = .next t) :
    t = { s with outcome := .fault .invalidMemoryLocation } ∨
    t = { s with
      guest   := { s.guest with
        V  := loadFrom s.guest.mem (s.guest.effectiveAddress 0) (x.val + 1) s.guest.V
        pc := s.guest.pc + 2 }
      outcome := .success } := by
  by_cases hb : s.guest.effectiveAddress x.val > 4095
  · rw [exec_loadRegs_fault hb] at h; cases h; exact .inl rfl
  · rw [exec_loadRegs_ok (by omega)] at h; cases h; exact .inr rfl

theorem getV_loadFrom {g : Guest} {m : Memory} {a n : Nat} {V : Vector Byte 16} (h : g.V = loadFrom m a n V) (r : Reg) :
    g.getV r = if r.val < n then readByte m (a + r.val) else V[r] := by
  rw [Guest.getV, Fin.getElem_fin, Fin.getElem_fin, ← loadFrom_getElem m a V n r.val r.isLt]
  simp only [h]

/-! ### How an instruction ends -/

/-- The `next_pc` of an instruction (40_step.md R53 phase 5, R56). -/
def nextPc (g : Guest) : Instr → Word
  | .ret        => g.slot g.sp.toInt.toNat
  | .jp a       => a
  | .call a     => a
  | .jpV0 a     => a + zext16 (g.getV 0)
  | .seImm x k  => if g.getV x = k then g.pc + 4 else g.pc + 2
  | .sneImm x k => if g.getV x ≠ k then g.pc + 4 else g.pc + 2
  | .seReg x y  => if g.getV x = g.getV y then g.pc + 4 else g.pc + 2
  | .sneReg x y => if g.getV x ≠ g.getV y then g.pc + 4 else g.pc + 2
  | .skp x      => if g.key[(g.getV x).toNat % 16]'(Nat.mod_lt _ (by decide)) = true then g.pc + 4 else g.pc + 2
  | .sknp x     => if g.key[(g.getV x).toNat % 16]'(Nat.mod_lt _ (by decide)) = false then g.pc + 4 else g.pc + 2
  | _           => g.pc + 2

/-- The three ends of an instruction: it commits its `next_pc`, it faults before any write, or it is a draw that faults
after some rows. -/
theorem exec_ends {i : Instr} {s t : State} (h : exec i s = .next t) :
    ((t.outcome = .success ∨ t.outcome = .haltedOnKeyPress) ∧ t.guest.pc = nextPc s.guest i) ∨
    (∃ f ∈ [Fault.invalidKey, .invalidMemoryLocation, .stackUnderflow, .stackOverflow],
      t = { s with outcome := .fault f }) ∨
    (∃ x y n, i = .drw x y n ∧
      t = { s with
        guest   := { s.guest with fb := t.guest.fb, V := t.guest.V }
        outcome := .fault .invalidSpriteLocation } ∧
      ∀ r, r ≠ 15 → t.guest.getV r = s.guest.getV r) := by
  cases i with
  | ret =>
    obtain rfl | ⟨k, sp, hk, -, rfl⟩ := exec_ret_cases h
    · exact .inr (.inl ⟨_, by decide, rfl⟩)
    · refine .inl ⟨.inl rfl, ?_⟩
      simp [nextPc, hk, StackPtr.toInt]
  | call a =>
    obtain rfl | ⟨j, -, rfl⟩ := exec_call_cases h
    · exact .inr (.inl ⟨_, by decide, rfl⟩)
    · exact .inl ⟨.inl rfl, rfl⟩
  | skp x =>
    obtain rfl | ⟨hk, rfl⟩ := exec_skp_cases h
    · exact .inr (.inl ⟨_, by decide, rfl⟩)
    · refine .inl ⟨.inl rfl, ?_⟩
      simp only [State.advance, nextPc, Nat.mod_eq_of_lt hk]
      split <;> rfl
  | sknp x =>
    obtain rfl | ⟨hk, rfl⟩ := exec_sknp_cases h
    · exact .inr (.inl ⟨_, by decide, rfl⟩)
    · refine .inl ⟨.inl rfl, ?_⟩
      simp only [State.advance, nextPc, Nat.mod_eq_of_lt hk]
      cases s.guest.key[(s.guest.getV x).toNat] <;> rfl
  | drw x y n =>
    obtain ⟨-, rfl⟩ | ⟨-, rfl⟩ := execDrw_cases h
    · exact .inl ⟨.inl rfl, rfl⟩
    · exact .inr (.inr ⟨x, y, n, rfl, rfl, fun r hr => getV_setV_other s.guest _ hr⟩)
  | ldB x | storeRegs x =>
    obtain ⟨-, rfl⟩ | ⟨-, rfl⟩ := storeAtI_cases h
    · exact .inr (.inl ⟨_, by decide, rfl⟩)
    · exact .inl ⟨.inl rfl, rfl⟩
  | loadRegs x =>
    obtain rfl | rfl := exec_loadRegs_cases h
    · exact .inr (.inl ⟨_, by decide, rfl⟩)
    · exact .inl ⟨.inl rfl, rfl⟩
  | ldVxK x => cases h; exact .inl ⟨.inr rfl, rfl⟩
  | seImm | sneImm | seReg | sneReg =>
    cases h
    refine .inl ⟨.inl rfl, ?_⟩
    simp only [nextPc, decide_eq_true_eq]
  | _ => cases h; exact .inl ⟨.inl rfl, rfl⟩

/-- Settles O17: the end that commits has the outcomes `Success` and `HaltedOnKeyPress`, and each fault keeps `pc`. -/
theorem pcIsCommittedOnlyBySuccessOrTheKeyWait : Obligations.PcIsCommittedOnlyBySuccessOrTheKeyWait := by
  refine ⟨fun i s t h hs hk => ?_, fun i s t h ho => ?_, fun s t hs h => ?_⟩
  · obtain ⟨ho | ho, -⟩ | ⟨f, -, rfl⟩ | ⟨x, y, n, -, ht, -⟩ := exec_ends h
    · exact absurd ho hs
    · exact absurd ho hk
    · rfl
    · rw [ht]
  · have hpc : t.guest.pc = nextPc s.guest i := by
      obtain ⟨-, hpc⟩ | ⟨f, -, rfl⟩ | ⟨x, y, n, -, ht, -⟩ := exec_ends h
      · exact hpc
      · simp at ho
      · rw [ht] at ho; simp at ho
    rw [hpc]
    cases i <;> rfl
  · rw [engineStep_halted hs] at h; cases h; rfl

/-- Settles O18: the ends that fault. -/
theorem onlyAFaultingDrawChangesTheState : Obligations.OnlyAFaultingDrawChangesTheState := by
  intro i s t f h hf
  obtain ⟨ho | ho, -⟩ | ⟨f', -, rfl⟩ | ⟨x, y, n, hi, ht, hV⟩ := exec_ends h
  · rw [ho] at hf; cases hf
  · rw [ho] at hf; cases hf
  · cases hf; exact .inl rfl
  · rw [ht] at hf; cases hf
    exact .inr ⟨x, y, n, hi, rfl, ht, hV⟩

/-! ### What an instruction writes -/

/-- The guest `g` with `pc`, and the pieces the spec names `i` as a writer of, taken from `g'`. -/
def writtenFrom (g g' : Guest) : Instr → Guest
  | .cls                                           => { g with fb := g'.fb, pc := g'.pc }
  | .ret                                           => { g with sp := g'.sp, pc := g'.pc }
  | .call _                                        => { g with sp := g'.sp, stack := g'.stack, pc := g'.pc }
  | .jp _ | .jpV0 _ | .seImm _ _ | .sneImm _ _ | .seReg _ _ | .sneReg _ _ | .skp _ | .sknp _ => { g with pc := g'.pc }
  | .ldI _ | .addI _ | .ldF _                      => { g with I := g'.I, pc := g'.pc }
  | .drw _ _ _                                     => { g with V := g'.V, fb := g'.fb, pc := g'.pc }
  | .ldVxK _                                       => { g with halted := g'.halted, kpr := g'.kpr, pc := g'.pc }
  | .ldDTVx _                                      => { g with DT := g'.DT, pc := g'.pc }
  | .ldSTVx _                                      => { g with ST := g'.ST, pc := g'.pc }
  | .ldB _ | .storeRegs _                          => { g with mem := g'.mem, pc := g'.pc }
  | .ldImm _ _ | .addImm _ _ | .ldReg _ _ | .orReg _ _ | .andReg _ _ | .xorReg _ _ | .addReg _ _ | .subReg _ _
  | .shr _ | .subnReg _ _ | .shl _ | .rnd _ _ | .ldVxDT _ | .loadRegs _ => { g with V := g'.V, pc := g'.pc }

/-- How many bytes of the oracle an instruction draws (assumption log 3). -/
def bytesDrawn : Instr → Nat
  | .rnd _ _ => 1
  | _        => 0

/-- The frame of every instruction: the guest pieces it is named for, the outcome, and the oracle's counter. -/
theorem exec_frame {i : Instr} {s t : State} (h : exec i s = .next t) :
    t = { s with
      guest    := writtenFrom s.guest t.guest i
      outcome  := t.outcome
      randUsed := s.randUsed + bytesDrawn i } := by
  cases i with
  | ret => obtain rfl | ⟨k, sp, -, -, rfl⟩ := exec_ret_cases h <;> rfl
  | call a => obtain rfl | ⟨j, -, rfl⟩ := exec_call_cases h <;> rfl
  | skp x => obtain rfl | ⟨-, rfl⟩ := exec_skp_cases h <;> rfl
  | sknp x => obtain rfl | ⟨-, rfl⟩ := exec_sknp_cases h <;> rfl
  | drw x y n => obtain ⟨-, rfl⟩ | ⟨-, rfl⟩ := execDrw_cases h <;> rfl
  | ldB x | storeRegs x => obtain ⟨-, rfl⟩ | ⟨-, rfl⟩ := storeAtI_cases h <;> rfl
  | loadRegs x => obtain rfl | rfl := exec_loadRegs_cases h <;> rfl
  | _ => cases h; rfl

theorem exec_guest {i : Instr} {s t : State} (h : exec i s = .next t) :
    t.guest = writtenFrom s.guest t.guest i :=
  (congrArg State.guest (exec_frame h) :)

theorem exec_orch {i : Instr} {s t : State} (h : exec i s = .next t) : t.orch = s.orch := by
  rw [exec_frame h]

theorem exec_events {i : Instr} {s t : State} (h : exec i s = .next t) : t.events = s.events := by
  rw [exec_frame h]

theorem exec_randUsed {i : Instr} {s t : State} (h : exec i s = .next t) (hi : ∀ x k, i ≠ .rnd x k) :
    t.randUsed = s.randUsed := by
  rw [exec_frame h]
  cases i with
  | rnd x k => exact absurd rfl (hi x k)
  | _ => rfl

/-! ### One lemma per piece of the guest: who writes it -/

theorem exec_I {i : Instr} {s t : State} (h : exec i s = .next t)
    (hld : ∀ a, i ≠ .ldI a) (hadd : ∀ x, i ≠ .addI x) (hf : ∀ x, i ≠ .ldF x) : t.guest.I = s.guest.I := by
  rw [exec_guest h]
  cases i with
  | ldI a => exact absurd rfl (hld a)
  | addI x => exact absurd rfl (hadd x)
  | ldF x => exact absurd rfl (hf x)
  | _ => rfl

theorem exec_sp {i : Instr} {s t : State} (h : exec i s = .next t) (hr : i ≠ .ret) (hc : ∀ a, i ≠ .call a) :
    t.guest.sp = s.guest.sp := by
  rw [exec_guest h]
  cases i with
  | ret => exact absurd rfl hr
  | call a => exact absurd rfl (hc a)
  | _ => rfl

theorem exec_stack {i : Instr} {s t : State} (h : exec i s = .next t) (hc : ∀ a, i ≠ .call a) :
    t.guest.stack = s.guest.stack := by
  rw [exec_guest h]
  cases i with
  | call a => exact absurd rfl (hc a)
  | _ => rfl

theorem exec_DT {i : Instr} {s t : State} (h : exec i s = .next t) (hd : ∀ x, i ≠ .ldDTVx x) :
    t.guest.DT = s.guest.DT := by
  rw [exec_guest h]
  cases i with
  | ldDTVx x => exact absurd rfl (hd x)
  | _ => rfl

theorem exec_ST {i : Instr} {s t : State} (h : exec i s = .next t) (hs : ∀ x, i ≠ .ldSTVx x) :
    t.guest.ST = s.guest.ST := by
  rw [exec_guest h]
  cases i with
  | ldSTVx x => exact absurd rfl (hs x)
  | _ => rfl

theorem exec_mem {i : Instr} {s t : State} (h : exec i s = .next t)
    (hb : ∀ x, i ≠ .ldB x) (hs : ∀ x, i ≠ .storeRegs x) : t.guest.mem = s.guest.mem := by
  rw [exec_guest h]
  cases i with
  | ldB x => exact absurd rfl (hb x)
  | storeRegs x => exact absurd rfl (hs x)
  | _ => rfl

theorem exec_fb {i : Instr} {s t : State} (h : exec i s = .next t) (hc : i ≠ .cls) (hd : ∀ x y n, i ≠ .drw x y n) :
    t.guest.fb = s.guest.fb := by
  rw [exec_guest h]
  cases i with
  | cls => exact absurd rfl hc
  | drw x y n => exact absurd rfl (hd x y n)
  | _ => rfl

theorem exec_halted_kpr {i : Instr} {s t : State} (h : exec i s = .next t) (hk : ∀ x, i ≠ .ldVxK x) :
    t.guest.halted = s.guest.halted ∧ t.guest.kpr = s.guest.kpr := by
  rw [exec_guest h]
  cases i with
  | ldVxK x => exact absurd rfl (hk x)
  | _ => exact ⟨rfl, rfl⟩

theorem exec_key {i : Instr} {s t : State} (h : exec i s = .next t) : t.guest.key = s.guest.key := by
  rw [exec_guest h]
  cases i <;> rfl

/-- A general register is written only by an instruction that may write it. -/
theorem exec_getV {i : Instr} {s t : State} (h : exec i s = .next t) {r : Reg} (hr : ¬ i.MayWriteV r) :
    t.guest.getV r = s.guest.getV r := by
  cases i with
  | ldImm | addImm | ldReg | orReg | andReg | xorReg | rnd | ldVxDT =>
    cases h
    exact getV_setV_other s.guest _ hr
  | addReg | subReg | shr | subnReg | shl =>
    cases h
    exact getV_setFlagThen_other s.guest _ _ (fun e => hr (.inl e)) (fun e => hr (.inr e))
  | drw x y n => obtain ⟨-, rfl⟩ | ⟨-, rfl⟩ := execDrw_cases h <;> exact getV_setV_other s.guest _ hr
  | loadRegs x =>
    obtain rfl | rfl := exec_loadRegs_cases h
    · rfl
    · have hlt : ¬ r.val < x.val + 1 := fun e => hr (Fin.le_def.mpr (by omega))
      rw [getV_loadFrom rfl, if_neg hlt]
      rfl
  | _ => rw [exec_guest h]; rfl

/-- An instruction that assigns no `next_pc` moves on by 2. -/
theorem nextPc_of_not_assigns (g : Guest) {i : Instr} (h : ¬ i.AssignsNextPc) : nextPc g i = g.pc + 2 := by
  cases i with
  | ret | jp | call | seImm | sneImm | seReg | sneReg | jpV0 | skp | sknp => exact absurd trivial h
  | _ => rfl

theorem exec_pc_of_not_assigns {i : Instr} {s t : State} (h : exec i s = .next t) (hi : ¬ i.AssignsNextPc) :
    t.guest.pc = s.guest.pc + 2 ∨ t.guest.pc = s.guest.pc := by
  obtain ⟨-, hpc⟩ | ⟨f, -, rfl⟩ | ⟨x, y, n, -, ht, -⟩ := exec_ends h
  · exact .inl (hpc.trans (nextPc_of_not_assigns s.guest hi))
  · exact .inr rfl
  · right; rw [ht]

/-- Settles O19: piece by piece. -/
theorem eachPieceOfStateHasOnlyItsNamedWriters : Obligations.EachPieceOfStateHasOnlyItsNamedWriters :=
  fun _ _ _ h => ⟨exec_I h, exec_sp h, exec_stack h, exec_DT h, exec_ST h,
    fun hb hs a => congrArg (readByte · a) (exec_mem h hb hs), exec_fb h, exec_halted_kpr h, exec_key h,
    fun _ hr => exec_getV h hr, exec_pc_of_not_assigns h, exec_randUsed h⟩

theorem setV_flagByte_zero_or_one (g : Guest) (x : Reg) (b : Bool) :
    (g.setV x (flagByte b)).getV x = 0 ∨ (g.setV x (flagByte b)).getV x = 1 := by
  rw [getV_setV_same]
  exact flagByte_zero_or_one b

theorem setFlagThen_flag_zero_or_one (g : Guest) (b : Bool) {x : Reg} (v : Byte) (h : x ≠ 15) :
    (g.setFlagThen b x v).getV 15 = 0 ∨ (g.setFlagThen b x v).getV 15 = 1 := by
  rw [getV_setFlagThen_flag g b v h]
  exact flagByte_zero_or_one b

/-- Settles O21: the five arithmetic forms and the draw put a flag byte into `VF`; no other form may write register 15
but as its destination. -/
theorem onlySixInstructionsWriteTheFlagAsASideEffect : Obligations.OnlySixInstructionsWriteTheFlagAsASideEffect := by
  intro i s t h
  cases i with
  | addReg | subReg | subnReg | shr | shl =>
    intro hx
    cases h
    exact setFlagThen_flag_zero_or_one s.guest _ _ hx
  | drw =>
    obtain ⟨-, rfl⟩ | ⟨-, rfl⟩ := execDrw_cases h <;> exact setV_flagByte_zero_or_one s.guest 15 _
  | ldImm | addImm | ldReg | orReg | andReg | xorReg | rnd | ldVxDT => exact fun hx => exec_getV h (Ne.symm hx)
  | loadRegs x => exact fun hx => exec_getV h (fun hle : (15 : Reg) ≤ x => hx (Fin.last_le_iff.mp hle))
  | _ => exact exec_getV h not_false

/-! ### The orchestrator state is out of reach (10_state.md section 2; 60_exceptions.md section 4) -/

section Privilege
variable (o : Orchestrator) (es : List Event) (s : State)

/-- `s` with another Orchestrator state and other events. -/
def State.withHost : State := { s with orch := o, events := es }

/-- What an instruction answers, with another Orchestrator state and other events in its next state. -/
def resultWithHost : Result → Result
  | .next t    => .next (t.withHost o es)
  | .fault f   => .fault f
  | .refused r => .refused r

theorem execRet_withHost : execRet (s.withHost o es) = resultWithHost o es (execRet s) := by
  have hsp : (s.withHost o es).guest.sp = s.guest.sp := rfl
  cases h : s.guest.sp <;> simp only [execRet, hsp, h] <;> rfl

theorem execCall_withHost (a : Word) : execCall a (s.withHost o es) = resultWithHost o es (execCall a s) := by
  have hsp : (s.withHost o es).guest.sp = s.guest.sp := rfl
  cases h : s.guest.sp with
  | empty => simp only [execCall, hsp, h]; rfl
  | top k =>
    simp only [execCall, hsp, h]
    split <;> rfl

theorem execSkp_withHost (x : Reg) : execSkp x (s.withHost o es) = resultWithHost o es (execSkp x s) := by
  have hg : (s.withHost o es).guest = s.guest := rfl
  cases h : keyIndex (s.guest.getV x) <;> simp only [execSkp, hg, h] <;> rfl

theorem execSknp_withHost (x : Reg) : execSknp x (s.withHost o es) = resultWithHost o es (execSknp x s) := by
  have hg : (s.withHost o es).guest = s.guest := rfl
  cases h : keyIndex (s.guest.getV x) <;> simp only [execSknp, hg, h] <;> rfl

theorem execDrw_withHost (x y : Reg) (n : Nat) :
    execDrw x y n (s.withHost o es) = resultWithHost o es (execDrw x y n s) := by
  rw [execDrw, execDrw, apply_ite (resultWithHost o es)]; rfl

theorem storeAtI_withHost (bs : List Byte) (n : Nat) :
    storeAtI (s.withHost o es) bs n = resultWithHost o es (storeAtI s bs n) := by
  rw [storeAtI, storeAtI, apply_ite (resultWithHost o es)]; rfl

theorem execLoadRegs_withHost (x : Reg) :
    execLoadRegs x (s.withHost o es) = resultWithHost o es (execLoadRegs x s) := by
  rw [execLoadRegs, execLoadRegs, apply_ite (resultWithHost o es)]; rfl

/-- An instruction commutes with a change of the Orchestrator state. -/
theorem exec_withHost (i : Instr) : exec i (s.withHost o es) = resultWithHost o es (exec i s) := by
  cases i with
  | ret => exact execRet_withHost o es s
  | call a => exact execCall_withHost o es s a
  | drw x y n => exact execDrw_withHost o es s x y n
  | skp x => exact execSkp_withHost o es s x
  | sknp x => exact execSknp_withHost o es s x
  | ldB x => exact storeAtI_withHost o es s _ _
  | storeRegs x => exact storeAtI_withHost o es s _ _
  | loadRegs x => exact execLoadRegs_withHost o es s x
  | _ => rfl

end Privilege

/-- Settles O20: the frame holds neither the Orchestrator state, the keypad nor the events, and an instruction commutes
with a change of them. -/
theorem theGuestCannotReachTheOrchestrator : Obligations.TheGuestCannotReachTheOrchestrator :=
  fun i s _ h => ⟨exec_orch h, exec_key h, exec_events h,
    fun o es => (exec_withHost o es s i).trans (congrArg (resultWithHost o es) h)⟩

/-! ### Every instruction answers a next state -/

theorem storeAtI_next (s : State) (bs : List Byte) (n : Nat) : ∃ t, storeAtI s bs n = .next t := by
  by_cases h : s.guest.effectiveAddress n > 4095
  · exact ⟨_, storeAtI_fault h⟩
  · exact ⟨_, storeAtI_ok (by omega)⟩

theorem exec_next (i : Instr) (s : State) : ∃ t, exec i s = .next t := by
  cases i with
  | ret =>
    cases h : s.guest.sp with
    | empty => exact ⟨_, exec_ret_empty h⟩
    | top k => obtain ⟨sp, -, he⟩ := exec_ret_top h; exact ⟨_, he⟩
  | call a =>
    obtain hfull | hlt := eq_top_fifteen_or_toInt_lt s.guest.sp
    · exact ⟨_, exec_call_full a hfull⟩
    · obtain ⟨j, -, he⟩ := exec_call_push a hlt; exact ⟨_, he⟩
  | skp x =>
    by_cases hk : (s.guest.getV x).toNat < 16
    · exact ⟨_, exec_skp_of_lt hk⟩
    · exact ⟨_, exec_skp_invalidKey (by omega)⟩
  | sknp x =>
    by_cases hk : (s.guest.getV x).toNat < 16
    · exact ⟨_, exec_sknp_of_lt hk⟩
    · exact ⟨_, exec_sknp_invalidKey (by omega)⟩
  | drw x y n =>
    simp only [exec, execDrw]
    split <;> exact ⟨_, rfl⟩
  | ldB x | storeRegs x => exact storeAtI_next s _ _
  | loadRegs x =>
    by_cases hb : s.guest.effectiveAddress x.val > 4095
    · exact ⟨_, exec_loadRegs_fault hb⟩
    · exact ⟨_, exec_loadRegs_ok (by omega)⟩
  | _ => exact ⟨_, rfl⟩

end Sys2Proof.Machine
end

section
/-! The engine step and the orchestrator step (40_step.md R53; 47_orchestrator.md R101): they always answer, what they
keep of the Orchestrator state, what a step emits, and the invariant. -/

namespace Sys2Proof.Machine

/-! ### The engine step -/

theorem engineStep_next (s : State) : ∃ t, engineStep s = .next t := by
  obtain ⟨-, h⟩ | ⟨-, -, h⟩ | ⟨-, -, h⟩ | ⟨-, -, i, -, h⟩ := engineStep_cases s
  · exact ⟨_, h⟩
  · exact ⟨_, h⟩
  · exact ⟨_, h⟩
  · rw [h]; exact exec_next i s

/-- The engine step returns an outcome and changes nothing else, or it runs an instruction. -/
theorem engineStep_eq {s t : State} (h : engineStep s = .next t) :
    t = { s with outcome := t.outcome } ∨ ∃ i, decodeWord s.guest.fetch = .ok i ∧ exec i s = .next t := by
  obtain ⟨-, he⟩ | ⟨-, -, he⟩ | ⟨-, -, he⟩ | ⟨-, -, i, hi, he⟩ := engineStep_cases s
  · rw [he] at h; cases h; exact .inl rfl
  · rw [he] at h; cases h; exact .inl rfl
  · rw [he] at h; cases h; exact .inl rfl
  · exact .inr ⟨i, hi, he ▸ h⟩

theorem engineStep_orch {s t : State} (h : engineStep s = .next t) : t.orch = s.orch := by
  obtain ht | ⟨i, -, hi⟩ := engineStep_eq h
  · rw [ht]
  · exact exec_orch hi

theorem engineStep_events {s t : State} (h : engineStep s = .next t) : t.events = s.events := by
  obtain ht | ⟨i, -, hi⟩ := engineStep_eq h
  · rw [ht]
  · exact exec_events hi

/-- No instruction raises the fetch fault: it belongs to the engine step. -/
theorem exec_ne_fetchOutOfRange {i : Instr} {s t : State} (h : exec i s = .next t) :
    t.outcome ≠ .fault .fetchOutOfRange := by
  obtain ⟨ho | ho, -⟩ | ⟨f, hf, rfl⟩ | ⟨x, y, n, -, ht, -⟩ := exec_ends h
  · simp [ho]
  · simp [ho]
  · rintro ho; cases ho; simp at hf
  · rw [ht]; simp

/-- Settles O9: the fetch bound is tested before the fetch, and no later phase of the step raises its fault. -/
theorem aFetchAboveTheLastWordChangesNothing : Obligations.AFetchAboveTheLastWordChangesNothing := by
  refine ⟨fun s hh hp => engineStep_fetchOut hh hp, fun s t hp h => ?_⟩
  obtain ⟨-, he⟩ | ⟨-, hgt, -⟩ | ⟨-, -, he⟩ | ⟨-, -, i, -, he⟩ := engineStep_cases s
  · rw [he] at h; cases h; simp
  · omega
  · rw [he] at h; cases h; simp
  · exact exec_ne_fetchOutOfRange (he ▸ h)

/-! ### The orchestrator step -/

theorem orchStep_miss {s : State} (h : takeBreakpoint s.guest.pc s.orch.bps = none) : orchStep s = runPhases s := by
  rw [orchStep, h]

theorem orchStep_hit {s : State} {bps : List Breakpoint} (h : takeBreakpoint s.guest.pc s.orch.bps = some bps) :
    orchStep s = .next { s with orch := { s.orch with bps := bps }, outcome := .breakpointReached } := by
  rw [orchStep, h]

theorem orchStep_next (s : State) : ∃ t, orchStep s = .next t := by
  cases h : takeBreakpoint s.guest.pc s.orch.bps with
  | some bps => exact ⟨_, orchStep_hit h⟩
  | none =>
    obtain ⟨u, hu⟩ := engineStep_next (timerPhase s)
    exact ⟨_, (orchStep_miss h).trans (runPhases_next hu)⟩

/-- Settles O10: the check is the step's first phase, and its answer at the oldest match is a law of the store. -/
theorem aBreakpointStopsTheStepBeforeAnythingElse : Obligations.ABreakpointStopsTheStepBeforeAnythingElse := by
  intro s older newer e hbps holder he
  have hhit := takeBreakpoint_hit older newer e holder he
  rw [← hbps] at hhit
  rw [step, orchStep_hit (s := s.beginCommand) hhit, hbps]
  rfl

/-- Past the checks before it, a step is: the timer phase, the decoded instruction, the frame phase. -/
theorem step_eq_exec {s : State} {i : Instr} (hbp : takeBreakpoint s.guest.pc s.orch.bps = none)
    (hh : s.guest.halted = false) (hp : s.guest.pc.toNat ≤ 4094) (hi : decodeWord s.guest.fetch = .ok i) :
    step s =
      match exec i (timerPhase { s with events := [] }) with
      | .next t    => .next (framePhase t)
      | .fault f   => .fault f
      | .refused r => .refused r := by
  have he : engineStep (timerPhase s.beginCommand) = exec i (timerPhase s.beginCommand) := by
    rw [engineStep_execute (by simpa using hh) (by simpa using hp)]
    exact executeWord_ok (by simpa [Guest.fetch] using hi) _
  rw [step, orchStep_miss (s := s.beginCommand) hbp, runPhases, he]
  rfl

/-- Settles O7: the fetched word is the word of the two bytes at `pc`. -/
theorem aStepRunsTheDecodedInstruction : Obligations.AStepRunsTheDecodedInstruction :=
  fun _ _ hbp hh hp hi => step_eq_exec hbp hh hp hi

/-! ### A placed word (assumption log 6) -/

/-- A `pc` that a placed word leaves can be fetched from. -/
theorem placeWord_pc_le (s : State) (w : Word) : (s.placeWord w).guest.pc.toNat ≤ 4094 := by
  simp only [State.placeWord]
  split
  · decide
  · rename_i h; simpa [Guest.fetchOut, Config.pcMax] using h

theorem placeWord_takeBreakpoint (s : State) (w : Word) :
    takeBreakpoint (s.placeWord w).guest.pc (s.placeWord w).orch.bps = none := by
  rw [takeBreakpoint_none_iff]
  intro b hb
  exact of_decide_eq_true (List.mem_filter.mp hb).2

/-- The two bytes written at an address are the word read there. -/
theorem readWord_writeBytes_bytesOfWord (m : Memory) (a : Nat) (w : Word) :
    readWord (writeBytes m a (bytesOfWord w)) a = w := by
  have hhi := readByte_writeBytes_inside (bytesOfWord w) m a 0 (by simp [bytesOfWord])
  have hlo := readByte_writeBytes_inside (bytesOfWord w) m a 1 (by simp [bytesOfWord])
  rw [Nat.add_zero] at hhi
  rw [readWord, hhi, hlo]
  exact wordOfBytes_bytesOfWord w

theorem placeWord_fetch (s : State) (w : Word) : (s.placeWord w).guest.fetch = w :=
  readWord_writeBytes_bytesOfWord _ _ w

theorem withFetchWord_eq (s : State) (w : Word) : s.withFetchWord 16 w.toNat = s.placeWord w := by
  rw [State.withFetchWord, Nat.mod_eq_of_lt w.isLt, BitVec.ofNat_toNat, BitVec.setWidth_eq]

/-- Settles O58: a placed word meets what `step_eq_exec` asks for. -/
theorem aPlacedWordIsTheNextInstruction : Obligations.APlacedWordIsTheNextInstruction := by
  intro s w i hi
  rw [withFetchWord_eq]
  exact step_eq_exec (placeWord_takeBreakpoint s w) rfl (placeWord_pc_le s w) (by rwa [placeWord_fetch])

/-! ### The counters and the events of a step -/

/-- A step that passes the breakpoint check, as its three phases leave it. -/
theorem step_phases {s : State} (h : takeBreakpoint s.guest.pc s.orch.bps = none) :
    ∃ u, step s = .next (framePhase u) ∧ u.orch = (timerPhase s.beginCommand).orch ∧
      u.events = (timerPhase s.beginCommand).events := by
  obtain ⟨u, hu⟩ := engineStep_next (timerPhase s.beginCommand)
  exact ⟨u, (orchStep_miss (s := s.beginCommand) h).trans (runPhases_next hu), engineStep_orch hu, engineStep_events hu⟩

/-- The timer phase of a stepping command emits no screen update. -/
theorem screenUpdate_not_mem_timerPhase (s : State) (fb : Framebuffer) :
    .screenUpdate fb ∉ (timerPhase s.beginCommand).events := by
  rw [timerPhase_events_eq, beginCommand_events]
  split <;> simp

/-- Settles O12: each phase moves its own counter, and the frame phase appends the one screen update. -/
theorem everyStepPastTheBreakpointCheckAdvancesBothCounters :
    Obligations.EveryStepPastTheBreakpointCheckAdvancesBothCounters := by
  intro s h
  obtain ⟨u, hstep, horch, hev⟩ := step_phases h
  have hev' := framePhase_events_eq u
  simp only [horch, hev, timerPhase_orch_frameStepCounter, timerPhase_orch_stepsPerFrame, beginCommand_orch] at hev'
  refine ⟨_, hstep, ?_, ?_, fun hge => ⟨_, ?_, screenUpdate_not_mem_timerPhase s⟩, fun hlt fb => ?_⟩
  · simp [horch]
  · simp [horch]
  · rw [hev', if_pos hge, framePhase_guest]
  · rw [hev', if_neg (by omega), List.append_nil]
    exact screenUpdate_not_mem_timerPhase s fb

theorem timerPhase_emittingTone (s : State) :
    (timerPhase s).orch.emittingTone =
      if s.orch.timerStepCounter + 1 ≥ s.orch.timerDivisor then decide (s.guest.ST.toNat - 1 > 0)
      else s.orch.emittingTone := by
  unfold timerPhase
  split
  · exact tick_emittingTone _
  · rfl

/-- Settles O48: at a breakpoint the step emits nothing; past it the tone is the timer phase's, and the frame phase adds
no request. -/
theorem aToneIsRequestedOnceUntilItEnds : Obligations.AToneIsRequestedOnceUntilItEnds := by
  intro s t h
  cases hbp : takeBreakpoint s.guest.pc s.orch.bps with
  | some bps =>
    cases (orchStep_hit (s := s.beginCommand) hbp).symm.trans h
    exact ⟨⟨[], by simp, by simp⟩, by simp⟩
  | none =>
    obtain ⟨u, hstep, horch, hev⟩ := step_phases hbp
    cases hstep.symm.trans h
    have hevents := framePhase_events_eq u
    rw [hev, timerPhase_events_eq, beginCommand_events, List.nil_append] at hevents
    simp only [toneStarts_iff] at hevents
    simp only [hevents, true_and]
    refine ⟨⟨_, rfl, fun d => ?_⟩, ?_⟩
    · split <;> simp
    · rw [framePhase_orch_emittingTone, horch, timerPhase_emittingTone]
      rfl

/-! ### The invariant -/

/-- The timing registers alone decide whether they agree. -/
theorem timingOk_of_eq {o o' : Orchestrator} (h : o.TimingOk) (hi : o'.ips = o.ips) (hf : o'.fps = o.fps)
    (hs : o'.stepsPerFrame = o.stepsPerFrame) (hd : o'.timerDivisor = o.timerDivisor)
    (hm : o'.maxFrameTimeMs = o.maxFrameTimeMs) : o'.TimingOk := by
  obtain ⟨hips, hfps, hspf, hpos, hdiv, hmax⟩ := h
  constructor <;> simpa only [hi, hf, hs, hd, hm]

/-- Another breakpoint store that fits. -/
theorem State.Sound.withBps {s : State} {bps : List Breakpoint} (h : s.Sound) (hfit : StoreFits bps) :
    State.Sound { s with orch := { s.orch with bps := bps } } :=
  ⟨h.mem, timingOk_of_eq h.timing rfl rfl rfl rfl rfl, hfit⟩

/-- Soundness looks at memory and the Orchestrator state alone. -/
theorem State.Sound.of_eq {s t : State} (h : s.Sound) (hm : t.guest.mem = s.guest.mem) (ho : t.orch = s.orch) :
    t.Sound :=
  ⟨hm ▸ h.mem, ho ▸ h.timing, ho ▸ h.store⟩

theorem timerPhase_timing {s : State} (h : s.orch.TimingOk) : (timerPhase s).orch.TimingOk :=
  timingOk_of_eq h (timerPhase_orch_ips s) (timerPhase_orch_fps s) (timerPhase_orch_stepsPerFrame s)
    (timerPhase_orch_timerDivisor s) (timerPhase_orch_maxFrameTimeMs s)

theorem framePhase_timing {s : State} (h : s.orch.TimingOk) : (framePhase s).orch.TimingOk :=
  timingOk_of_eq h (framePhase_orch_ips s) (framePhase_orch_fps s) (framePhase_orch_stepsPerFrame s)
    (framePhase_orch_timerDivisor s) (framePhase_orch_maxFrameTimeMs s)

theorem timerDivisor_pos {o : Orchestrator} (h : o.TimingOk) : 0 < o.timerDivisor := by
  rw [h.divisor]; exact timerDivisorOf_pos _

/-- Both phases leave their counter below its limit. -/
theorem phases_counters {s u : State} (ht : s.orch.TimingOk) (hu : u.orch = (timerPhase s).orch) :
    (framePhase u).orch.CountersOk := by
  have hspf := ht.spf_pos
  have hdiv := timerDivisor_pos ht
  constructor
  · rw [framePhase_orch_frameStepCounter, framePhase_orch_stepsPerFrame, hu]
    simp only [timerPhase_orch_frameStepCounter, timerPhase_orch_stepsPerFrame]
    split <;> omega
  · rw [framePhase_orch_timerStepCounter, framePhase_orch_timerDivisor, hu]
    simp only [timerPhase_orch_timerStepCounter, timerPhase_orch_timerDivisor]
    split <;> omega

theorem storeAtI_mem_wf {s t : State} {bs : List Byte} {n : Nat} (hlen : bs.length = n + 1)
    (h : storeAtI s bs n = .next t) (hs : s.guest.mem.wf) : t.guest.mem.wf := by
  obtain ⟨-, rfl⟩ | ⟨hle, rfl⟩ := storeAtI_cases h
  · exact hs
  · refine writeBytes_wf bs _ _ hs ?_
    simp only [Guest.effectiveAddress, Config.memSize] at hle ⊢
    omega

theorem exec_mem_wf {i : Instr} {s t : State} (h : exec i s = .next t) (hs : s.guest.mem.wf) : t.guest.mem.wf := by
  cases i with
  | ldB x => exact storeAtI_mem_wf (bcdDigits_length _) h hs
  | storeRegs x => exact storeAtI_mem_wf (regsUpTo_length _ _) h hs
  | _ => rw [exec_mem h (by simp) (by simp)]; exact hs

theorem engineStep_mem_wf {s t : State} (h : engineStep s = .next t) (hs : s.guest.mem.wf) : t.guest.mem.wf := by
  obtain ht | ⟨i, -, hi⟩ := engineStep_eq h
  · rw [ht]; exact hs
  · exact exec_mem_wf hi hs

theorem orchStep_sound {s t : State} (hs : s.Sound) (h : orchStep s = .next t) : t.Sound := by
  obtain ⟨bps, hbp, rfl⟩ | ⟨-, u, hu, rfl⟩ := orchStep_cases h
  · exact (hs.withBps (storeFits_of_length_le hs.store (takeBreakpoint_length hbp))).of_eq rfl rfl
  · have horch := engineStep_orch hu
    refine ⟨?_, framePhase_timing ?_, ?_⟩
    · rw [framePhase_guest]
      exact engineStep_mem_wf hu (by rw [timerPhase_mem]; exact hs.mem)
    · rw [horch]; exact timerPhase_timing hs.timing
    · rw [framePhase_orch_bps, horch, timerPhase_orch_bps]; exact hs.store

theorem orchStep_inv {s t : State} (hs : s.Inv) (h : orchStep s = .next t) : t.Inv := by
  refine ⟨orchStep_sound hs.sound h, ?_⟩
  obtain ⟨bps, -, rfl⟩ | ⟨-, u, hu, rfl⟩ := orchStep_cases h
  · exact ⟨hs.counters.frame, hs.counters.timer⟩
  · exact phases_counters hs.sound.timing (engineStep_orch hu)

theorem beginCommand_sound {s : State} (h : s.Sound) : s.beginCommand.Sound := ⟨h.mem, h.timing, h.store⟩

theorem beginCommand_inv {s : State} (h : s.Inv) : s.beginCommand.Inv := ⟨beginCommand_sound h.sound, h.counters⟩

/-- Settles O15: the breakpoint check shortens the store, the phases keep timing and wrap the counters, the engine step
stores in memory only below 4096. -/
theorem everyStepKeepsTheInvariant : Obligations.EveryStepKeepsTheInvariant :=
  fun _ _ hs h => orchStep_inv (beginCommand_inv hs) h

end Sys2Proof.Machine
end

section
/-! The host commands (47_orchestrator.md): timing, reset and load, frames, the breakpoint store, the debug commands,
the setters; then that every command answers and what it keeps. -/

namespace Sys2Proof.Machine

/-! ### Timing (R98, R99) -/

theorem stepsPerFrameOf_eq_floor (ips : Int) (fps : Rat) : stepsPerFrameOf ips fps = ⌊(ips : Rat) / fps⌋ := rfl

theorem one_le_stepsPerFrameOf_iff (ips : Int) {fps : Rat} (hf : 0 < fps) :
    1 ≤ stepsPerFrameOf ips fps ↔ fps ≤ (ips : Rat) := by
  rw [stepsPerFrameOf_eq_floor, Int.le_floor, Int.cast_one, one_le_div hf]

theorem stepsPerFrameOf_bounds (ips : Int) {fps : Rat} (hf : 0 < fps) :
    (stepsPerFrameOf ips fps : Rat) * fps ≤ ips ∧ (ips : Rat) < ((stepsPerFrameOf ips fps : Rat) + 1) * fps := by
  rw [stepsPerFrameOf_eq_floor, ← le_div_iff₀ hf, ← div_lt_iff₀ hf]
  exact ⟨Int.floor_le _, Int.lt_floor_add_one _⟩

theorem configureTiming_rejects {ips : Int} {fps : Rat} (s : State) (h : ips ≤ 0 ∨ fps ≤ 0 ∨ (ips : Rat) < fps) :
    configureTiming ips fps s = .next (s, .rejected) := by
  unfold configureTiming
  split
  · rfl
  · rename_i hpos
    have hf : 0 < fps := lt_of_not_ge fun hle => hpos (.inr hle)
    have hlt : ¬ 1 ≤ stepsPerFrameOf ips fps := by
      rw [one_le_stepsPerFrameOf_iff ips hf, not_le]
      tauto
    rw [if_pos (not_le.mp hlt)]

theorem configureTiming_accepts {ips : Int} {fps : Rat} (s : State) (hi : 0 < ips) (hf : 0 < fps)
    (h : fps ≤ (ips : Rat)) :
    configureTiming ips fps s = .next ({ s with orch := s.orch.retime ips fps }, .accepted) := by
  have hspf := (one_le_stepsPerFrameOf_iff ips hf).mpr h
  rw [configureTiming, if_neg (by rw [not_or, not_le, not_le]; exact ⟨hi, hf⟩), if_neg (by omega)]

/-- Everything `configure_timing` can do. -/
theorem configureTiming_cases (ips : Int) (fps : Rat) (s : State) :
    configureTiming ips fps s = .next (s, .rejected) ∨
    (0 < ips ∧ 0 < fps ∧ fps ≤ (ips : Rat) ∧
      configureTiming ips fps s = .next ({ s with orch := s.orch.retime ips fps }, .accepted)) := by
  by_cases h : ips ≤ 0 ∨ fps ≤ 0 ∨ (ips : Rat) < fps
  · exact .inl (configureTiming_rejects s h)
  · simp only [not_or, not_le, not_lt] at h
    obtain ⟨hi, hf, hle⟩ := h
    exact .inr ⟨hi, hf, hle, configureTiming_accepts s hi hf hle⟩

/-- The divisor is the integer nearest to `ips / 60`, at least 1. -/
theorem timerDivisorOf_bounds (n : Nat) :
    (n < 30 → timerDivisorOf n = 1) ∧
    (30 ≤ n → 60 * timerDivisorOf n ≤ n + 30 ∧ n < 60 * timerDivisorOf n + 30) := by
  have h := roundDiv_bounds n (d := Config.timerHz) (by decide)
  simp only [timerDivisorOf, Config.timerHz] at h ⊢
  omega

/-- Settles O49: the two tests of the command are the three conditions of the rule, and the registers are a floor and a
rounded quotient. -/
theorem configureTimingDerivesOrRejects : Obligations.ConfigureTimingDerivesOrRejects := by
  intro ips fps s
  refine ⟨configureTiming_rejects s, fun hi hf h => ⟨_, configureTiming_accepts s hi hf h, ?_⟩⟩
  have hspf := (one_le_stepsPerFrameOf_iff ips hf).mpr h
  have hcast : (((stepsPerFrameOf ips fps).toNat : Int) : Rat) = (stepsPerFrameOf ips fps : Rat) := by
    rw [Int.toNat_of_nonneg (by omega)]
  obtain ⟨hlo, hhi⟩ := stepsPerFrameOf_bounds ips hf
  obtain ⟨hsmall, hlarge⟩ := timerDivisorOf_bounds ips.toNat
  simp only [Orchestrator.retime]
  refine ⟨trivial, by omega, trivial, ?_, ?_, div_mul_cancel₀ _ hf.ne', fun h30 => hsmall (by omega), fun h30 => ?_⟩
  · rw [← Int.cast_natCast, hcast]; exact hlo
  · rw [← Int.cast_natCast, hcast]; exact hhi
  · have := hlarge (by omega)
    omega

/-! ### Reset and program load (R100, R107) -/

theorem readByte_reset_font (a : Nat) : readByte Guest.reset.mem a = fontTable.getD a 0 := rfl

theorem readByte_reset_above {a : Nat} (h : 80 ≤ a) : readByte Guest.reset.mem a = 0 :=
  List.getD_eq_default _ _ (le_trans (by decide) h)

/-- Settles O50: the Guest State after `reset` is a constant, and its memory lists no cell. -/
theorem resetIsTotalAndIdempotent : Obligations.ResetIsTotalAndIdempotent :=
  fun s u => ⟨s.hostReset, u.hostReset, rfl, rfl, rfl, rfl, fun a _ => readByte_reset_font a,
    fun _ ha => readByte_reset_above ha⟩

theorem getV_reset (r : Reg) : Guest.reset.getV r = 0 := by simp [Guest.getV, Guest.reset]

theorem slot_reset (k : Nat) : Guest.reset.slot k = 0 := by
  unfold Guest.slot
  split
  · simp [Guest.reset]
  · rfl

/-- Settles O51: register by register. -/
theorem resetLeavesTheTableOfResetValues : Obligations.ResetLeavesTheTableOfResetValues :=
  fun s => ⟨s.hostReset, rfl, getV_reset, rfl, rfl, rfl, slot_reset, rfl, rfl, fun a _ => readByte_reset_font a,
    fun _ ha => readByte_reset_above ha, pixel_blank, fun k => by simp [Guest.reset], rfl, rfl, rfl⟩

theorem loadProgram_rejects {bytes : List Byte} (s : State) (h : bytes.length > 3584) :
    loadProgram bytes s = .next (s, .rejected) :=
  if_pos h

theorem loadProgram_accepts {bytes : List Byte} (s : State) (h : bytes.length ≤ 3584) :
    loadProgram bytes s = .next (s.loaded bytes, .accepted) :=
  if_neg (Nat.not_lt.mpr h)

/-- Everything `load_program` can do. -/
theorem loadProgram_cases (bytes : List Byte) (s : State) :
    loadProgram bytes s = .next (s, .rejected) ∨
    (bytes.length ≤ 3584 ∧ loadProgram bytes s = .next (s.loaded bytes, .accepted)) := by
  by_cases h : bytes.length ≤ 3584
  · exact .inr ⟨h, loadProgram_accepts s h⟩
  · exact .inl (loadProgram_rejects s (by omega))

/-- Settles O52: a load is the reset state with the image written over its memory. -/
theorem loadProgramResetsAndCopies : Obligations.LoadProgramResetsAndCopies := by
  refine fun bytes s => ⟨loadProgram_rejects s, fun h => ⟨_, _, loadProgram_accepts s h, rfl, rfl, fun i hi => ?_, ?_⟩⟩
  · rw [List.getD_eq_getElem _ _ hi]
    exact readByte_writeBytes_inside bytes _ _ i hi
  · exact fun a ha => readByte_writeBytes_outside bytes _ _ a ha

/-! ### Frames (R105) -/

/-- A run of successful steps can be extended at its front. -/
theorem SuccessfulSteps.cons {n : Nat} {s t u : State} (h : orchStep s = .next t) (ht : t.outcome = .success)
    (hu : SuccessfulSteps n t u) : SuccessfulSteps (n + 1) s u := by
  induction hu with
  | none t => exact .more (.none s) h ht
  | more _ hstep hout ih => exact .more (ih h ht) hstep hout

/-- Everything `n` steps of a frame can do: all succeed, or the first that does not is the last. -/
theorem runSteps_ends (n : Nat) (s : State) : ∃ t, runSteps n s = .next t ∧
    ((t.outcome = .success ∧ ∃ u, SuccessfulSteps n s u ∧ t = { u with outcome := .success }) ∨
     (t.outcome ≠ .success ∧ ∃ k u, k < n ∧ SuccessfulSteps k s u ∧ orchStep u = .next t)) := by
  induction n generalizing s with
  | zero => exact ⟨_, rfl, .inl ⟨rfl, s, .none s, rfl⟩⟩
  | succ n ih =>
    obtain ⟨v, hv⟩ := orchStep_next s
    by_cases hout : v.outcome = .success
    · obtain ⟨t, ht, ⟨ho, u, hu, he⟩ | ⟨ho, k, u, hk, hu, he⟩⟩ := ih v
      · exact ⟨t, (runSteps_success hv hout).trans ht, .inl ⟨ho, u, hu.cons hv hout, he⟩⟩
      · exact ⟨t, (runSteps_success hv hout).trans ht, .inr ⟨ho, k + 1, u, by omega, hu.cons hv hout, he⟩⟩
    · exact ⟨v, runSteps_stop hv hout, .inr ⟨hout, 0, s, by omega, .none s, hv⟩⟩

/-- Settles O53: the command is its steps, with the last outcome as the reply. -/
theorem oneFrameStopsAtTheFirstOtherOutcome : Obligations.OneFrameStopsAtTheFirstOtherOutcome := by
  intro s
  obtain ⟨t, ht, hends⟩ := runSteps_ends s.orch.stepsPerFrame s.beginCommand
  exact ⟨t, congrArg withOutcome ht, hends⟩

/-! ### The breakpoint store (R103, R104) -/

/-- Everything `bp_add` can do. -/
theorem bpAdd_cases (a : Word) (d : Disposition) (s : State) :
    bpAdd a d s = .next (s, .rejected) ∨
    (storeFull s.orch.bps = false ∧ bpAdd a d s = .next (s.appendBreakpoint a d, .accepted)) := by
  unfold bpAdd
  cases h : storeFull s.orch.bps with
  | true  => exact .inl rfl
  | false => exact .inr ⟨rfl, rfl⟩

/-- Settles O56: `bp_remove` keeps and counts by the same test of the address. -/
theorem breakpointCommandsEditTheStore : Obligations.BreakpointCommandsEditTheStore := by
  intro addr d s
  refine ⟨rfl, ⟨_, _, rfl, rfl, List.filter_sublist, fun e => by simp, ?_, List.countP_eq_length_filter⟩, rfl⟩
  have hsplit := List.length_eq_countP_add_countP (fun e : Breakpoint => decide (e.addr ≠ addr)) (l := s.orch.bps)
  simp only [List.countP_eq_length_filter, decide_not] at hsplit ⊢
  simpa using hsplit.symm

/-! ### The debug commands (R112 to R114) -/

theorem plantOneShot_eq_ite (a : Word) (s : State) :
    plantOneShot a s =
      if storeFull s.orch.bps = true then .refused .breakpointStoreFull
      else .next
        ({ s with orch := { s.orch with bps := s.orch.bps ++ [{ addr := a, disposition := .clearAfterTrigger }] } },
          .outcome .success) := rfl

/-- Everything the three debug commands can do: answer a fault and change nothing, be refused by a full store, or
plant a one-shot breakpoint. -/
theorem debugCommand_cases {c : Command} (s : State) (hc : c = .stepInto ∨ c = .stepOver ∨ c = .stepOut) :
    (∃ f, runCommand c s = .next (s, .outcome (.fault f))) ∨
    (storeFull s.orch.bps = true ∧ runCommand c s = .refused .breakpointStoreFull) ∨
    (storeFull s.orch.bps = false ∧
      ∃ a, runCommand c s = .next (s.appendBreakpoint a .clearAfterTrigger, .outcome .success)) := by
  have hplant : (∃ f, runCommand c s = .next (s, .outcome (.fault f))) ∨ ∃ a, runCommand c s = plantOneShot a s := by
    obtain rfl | rfl | rfl := hc
    · rw [runCommand, stepInto]
      split
      · exact .inl ⟨_, rfl⟩
      · exact .inr ⟨_, rfl⟩
    · exact .inr ⟨_, rfl⟩
    · rw [runCommand, stepOut]
      split
      · exact .inl ⟨_, rfl⟩
      · exact .inr ⟨_, rfl⟩
  obtain hfault | ⟨a, ha⟩ := hplant
  · exact .inl hfault
  · rw [ha]
    obtain hfull | ⟨hroom, he⟩ := plantOneShot_eq a s
    · exact .inr (.inl hfull)
    · exact .inr (.inr ⟨hroom, a, he⟩)

/-- The scan finds the first call, if it looks far enough. -/
theorem nextCall_first {m : Memory} : ∀ (j n a : Nat), j < n → a + 2 * j ≤ 4094 →
    (∀ k, k < j → (readWord m (a + 2 * k)).toNat / 4096 ≠ 2) → (readWord m (a + 2 * j)).toNat / 4096 = 2 →
    nextCall m n a = some (BitVec.ofNat 16 ((readWord m (a + 2 * j)).toNat % 4096)) := by
  intro j
  induction j with
  | zero =>
    intro n a hn ha _ hcall
    obtain ⟨n, rfl⟩ := Nat.exists_eq_add_one_of_ne_zero (Nat.ne_of_gt hn)
    exact nextCall_found ha hcall
  | succ j ih =>
    intro n a hn ha hno hcall
    obtain ⟨n, rfl⟩ := Nat.exists_eq_add_one_of_ne_zero (by omega : n ≠ 0)
    have hshift : ∀ k, a + 2 + 2 * k = a + 2 * (k + 1) := fun k => by omega
    rw [nextCall_skip (a := a) (by omega) (hno 0 (by omega)), ih n (a + 2) (by omega) (by omega), hshift]
    · intro k hk
      rw [hshift]
      exact hno (k + 1) (by omega)
    · rwa [hshift]

theorem nextCall_none {m : Memory} : ∀ (n a : Nat),
    (∀ j, a + 2 * j ≤ 4094 → (readWord m (a + 2 * j)).toNat / 4096 ≠ 2) → nextCall m n a = none := by
  intro n
  induction n with
  | zero => intro a _; rfl
  | succ n ih =>
    intro a hno
    by_cases ha : a ≤ 4094
    · rw [nextCall_skip ha (hno 0 ha)]
      refine ih (a + 2) fun j hj => ?_
      have hshift : a + 2 + 2 * j = a + 2 * (j + 1) := by omega
      rw [hshift] at hj ⊢
      exact hno (j + 1) hj
    · exact nextCall_beyond (by omega)

/-- Settles O54: 2048 words are more than lie between any `pc` and 4094 at a stride of two. -/
theorem stepIntoFindsTheNextCall : Obligations.StepIntoFindsTheNextCall := by
  refine fun s => ⟨fun j hj hno hcall => ?_, fun hno => ?_⟩
  · rw [runCommand, stepInto, nextCall_first j 2048 _ (by omega) hj hno hcall]
    exact plantOneShot_eq_ite _ s
  · rw [runCommand, stepInto, nextCall_none 2048 _ hno]

theorem stepOverTarget_eq (g : Guest) :
    stepOverTarget g =
      if (g.pc + 2).toNat ≤ 4094 ∧ (readWord g.mem (g.pc + 2).toNat).toNat / 4096 = 2
      then BitVec.ofNat 16 ((readWord g.mem (g.pc + 2).toNat).toNat % 4096 + 2) else g.pc + 2 := by
  simp only [stepOverTarget, isCall_iff, callTarget_eq, Config.pcMax, BitVec.ofNat_add]
  rfl

/-- Settles O55: both commands end in the one operation that plants a breakpoint. -/
theorem stepOverAndStepOutPlantOneShots : Obligations.StepOverAndStepOutPlantOneShots := by
  refine fun s => ⟨?_, fun h => ?_, fun h => ?_⟩
  · rw [← stepOverTarget_eq]
    exact plantOneShot_eq_ite _ s
  · rw [runCommand, stepOut, (toInt_eq_neg_one_iff _).mp h]
  · obtain ⟨k, hk⟩ := eq_top_of_toInt_nonneg h
    rw [runCommand, stepOut, hk]
    simp only [StackPtr.toInt, Int.toNat_natCast, slot_of_lt _ k.isLt]
    exact plantOneShot_eq_ite _ s

/-! ### The setters (R115 to R118) -/

theorem setPc_accepts {v : Nat} (s : State) (h : v ≤ 4094) :
    setPc v s = .next ({ s with guest := { s.guest with pc := BitVec.ofNat 16 v } }, .accepted) :=
  if_neg (Nat.not_lt.mpr h)

theorem setPc_rejects {v : Nat} (s : State) (h : 4094 < v) : setPc v s = .next (s, .rejected) := if_pos h

theorem setKeyState_refuses {k : Nat} (pressed : Bool) (s : State) (h : 15 < k) :
    setKeyState k pressed s = .refused (.keyOutOfRange k) :=
  dif_neg (by omega)

/-- Everything `set_pc` can do. -/
theorem setPc_cases (v : Nat) (s : State) :
    setPc v s = .next (s, .rejected) ∨
    setPc v s = .next ({ s with guest := { s.guest with pc := BitVec.ofNat 16 v } }, .accepted) := by
  by_cases h : v ≤ 4094
  · exact .inr (setPc_accepts s h)
  · exact .inl (setPc_rejects s (by omega))

/-- Everything `set_key_state` can do. -/
theorem setKeyState_cases (k : Nat) (pressed : Bool) (s : State) :
    setKeyState k pressed s = .refused (.keyOutOfRange k) ∨
    ∃ j, setKeyState k pressed s = .next ({ s with guest := s.guest.notifyKey j pressed }, .done) := by
  by_cases h : k ≤ 15
  · exact .inr ⟨_, setKeyState_next h pressed s⟩
  · exact .inl (setKeyState_refuses pressed s (by omega))

/-- A command that declines answers the state it was given. -/
theorem eq_of_rejected {c : Command} {s t : State} (h : runCommand c s = .next (t, .rejected)) : t = s := by
  by_cases hdebug : c = .stepInto ∨ c = .stepOver ∨ c = .stepOut
  · obtain ⟨f, he⟩ | ⟨-, he⟩ | ⟨-, a, he⟩ := debugCommand_cases s hdebug <;> cases he.symm.trans h
  cases c with
  | stepInto | stepOver | stepOut => simp at hdebug
  | configureTiming ips fps =>
    obtain he | ⟨-, -, -, he⟩ := configureTiming_cases ips fps s <;> cases he.symm.trans h
    rfl
  | loadProgram bytes =>
    obtain he | ⟨-, he⟩ := loadProgram_cases bytes s <;> cases he.symm.trans h
    rfl
  | bpAdd a d =>
    obtain he | ⟨-, he⟩ := bpAdd_cases a d s <;> cases he.symm.trans h
    rfl
  | setPc v =>
    obtain he | he := setPc_cases v s <;> cases he.symm.trans h
    rfl
  | step | runForOneFrame =>
    obtain ⟨-, hr⟩ := withOutcome_next h
    cases hr
  | setKeyState k pressed =>
    obtain he | ⟨j, he⟩ := setKeyState_cases k pressed s <;> cases he.symm.trans h
  | reset | setDelayTimer | bpRemove | bpClear => cases h

/-- Settles O57: the bound of `set_pc` is the only test of the setters; rejection is followed through every command. -/
theorem settersWriteTheirRegisterAndRejectionChangesNothing :
    Obligations.SettersWriteTheirRegisterAndRejectionChangesNothing := by
  refine ⟨fun v s => ⟨fun h => ⟨_, setPc_accepts s h, rfl, ?_⟩, setPc_rejects s⟩, fun _ _ => rfl,
    fun k b s h => setKeyState_refuses b s h, fun c s t h => eq_of_rejected h⟩
  exact Nat.mod_eq_of_lt (by omega)

/-! ### Key notifications (R115; 45_keypad_timers.md R94) -/

theorem exec_ldVxK (x : Reg) (s : State) : exec (.ldVxK x) s =
    .next { s with
      guest   := { s.guest with halted := true, kpr := x, pc := s.guest.pc + 2 }
      outcome := .haltedOnKeyPress } := rfl

theorem key_set (keys : Vector Bool 16) (k j : Fin 16) (b : Bool) :
    (keys.set k b)[j] = if j.val = k.val then b else keys[j] := by
  rw [Fin.getElem_fin, Fin.getElem_fin, Vector.getElem_set]
  simp only [eq_comm]

/-- Settles O46: the two notifications of `notifyKey`, and the keypad after a set. -/
theorem aKeyWaitReceivesTheNextPress : Obligations.AKeyWaitReceivesTheNextPress := by
  refine fun x s => ⟨exec_ldVxK x s, fun k hk hh => ⟨_, setKeyState_next hk true s, ?_⟩, fun k b hk h =>
    ⟨_, setKeyState_next hk b s, ?_⟩⟩
  · rw [notifyKey_wakes _ hh]
    have hnum : (BitVec.ofNat 8 k).toNat = k := Nat.mod_eq_of_lt (by omega)
    exact ⟨rfl, (congrArg BitVec.toNat (getV_setV_same _ _ _)).trans hnum, fun r hr => getV_setV_other _ _ hr,
      fun j => key_set _ _ j true⟩
  · rw [notifyKey_notes _ h]
    exact ⟨rfl, fun j => key_set _ _ j b⟩

/-! ### The tick (R109, R110) -/

/-- Settles O47: both timers are counted down; the flag and the request follow the `ST` the tick finds. -/
theorem theTickCountsDownAndStartsTones : Obligations.TheTickCountsDownAndStartsTones := by
  refine fun s => ⟨rfl, countDown_toNat _, countDown_toNat _, ?_, ?_⟩
  · rw [tick_emittingTone, decide_eq_true_eq]; omega
  · rw [tick_events_eq]; simp only [toneStarts_iff]; rfl

end Sys2Proof.Machine
end

section
/-! Every command answers, and what every command keeps (47_orchestrator.md section 7; 10_state.md section 2). -/

namespace Sys2Proof.Machine

/-! ### Every command answers -/

/-- Settles O13: a step answers as its engine step does; of the commands only the debug commands can be refused inside
their domain. -/
theorem everyStepCompletesAndOnlyAFullStoreRefuses : Obligations.EveryStepCompletesAndOnlyAFullStoreRefuses := by
  refine ⟨fun s => orchStep_next s.beginCommand, fun c s hwf => ?_⟩
  by_cases hdebug : c = .stepInto ∨ c = .stepOver ∨ c = .stepOut
  · obtain ⟨f, he⟩ | ⟨hfull, he⟩ | ⟨-, a, he⟩ := debugCommand_cases s hdebug
    · exact .inl ⟨_, _, he⟩
    · exact .inr ⟨he, hfull, hdebug⟩
    · exact .inl ⟨_, _, he⟩
  left
  cases c with
  | stepInto | stepOver | stepOut => simp at hdebug
  | step =>
    obtain ⟨t, ht⟩ := orchStep_next s.beginCommand
    exact ⟨t, _, congrArg withOutcome ht⟩
  | runForOneFrame =>
    obtain ⟨t, ht, -⟩ := runSteps_ends s.orch.stepsPerFrame s.beginCommand
    exact ⟨t, _, congrArg withOutcome ht⟩
  | setKeyState k pressed => exact ⟨_, _, setKeyState_next (of_decide_eq_true hwf) pressed s⟩
  | configureTiming ips fps =>
    obtain he | ⟨-, -, -, he⟩ := configureTiming_cases ips fps s <;> exact ⟨_, _, he⟩
  | loadProgram bytes => obtain he | ⟨-, he⟩ := loadProgram_cases bytes s <;> exact ⟨_, _, he⟩
  | setPc v => obtain he | he := setPc_cases v s <;> exact ⟨_, _, he⟩
  | bpAdd a d => obtain he | ⟨-, he⟩ := bpAdd_cases a d s <;> exact ⟨_, _, he⟩
  | reset | setDelayTimer | bpRemove | bpClear => exact ⟨_, _, rfl⟩

/-! ### The invariant at power-on and over the commands -/

/-- Settles O14: the power-on timing is what `configure_timing` derives from 500 and 60. -/
theorem theInvariantHoldsAtReset : Obligations.TheInvariantHoldsAtReset where
  sound :=
    { mem    := reset_mem_wf
      timing :=
        { ips_pos := by decide, fps_pos := by decide +kernel, spf := by decide +kernel, spf_pos := by decide,
          divisor := by decide, frameTime := by decide +kernel }
      store  := fun n _ => Nat.zero_le n }
  counters := { frame := by decide, timer := by decide }

theorem retime_timing (o : Orchestrator) {ips : Int} {fps : Rat} (hi : 0 < ips) (hf : 0 < fps) (h : fps ≤ (ips : Rat)) :
    (o.retime ips fps).TimingOk := by
  have hspf := (one_le_stepsPerFrameOf_iff ips hf).mpr h
  have hips : (ips.toNat : Int) = ips := Int.toNat_of_nonneg (by omega)
  have hcast : ((stepsPerFrameOf ips fps).toNat : Int) = stepsPerFrameOf ips.toNat fps := by rw [hips]; omega
  have hpos : 1 ≤ (stepsPerFrameOf ips fps).toNat := by omega
  exact ⟨by simpa [Orchestrator.retime], hf, hcast, hpos, rfl, rfl⟩

theorem hostReset_sound {s : State} (h : s.Sound) : s.hostReset.Sound :=
  ⟨reset_mem_wf, timingOk_of_eq h.timing rfl rfl rfl rfl rfl, h.store⟩

theorem hostReset_counters {s : State} (h : s.Sound) : s.hostReset.orch.CountersOk :=
  ⟨h.timing.spf_pos, timerDivisor_pos (hostReset_sound h).timing⟩

/-- An image that fits ends at or below address 4095. -/
theorem loaded_sound {s : State} {bytes : List Byte} (h : s.Sound) (hlen : bytes.length ≤ 3584) :
    (s.loaded bytes).Sound :=
  ⟨writeBytes_wf bytes _ _ reset_mem_wf (by simp only [Config.programOrigin, Config.memSize]; omega),
    (hostReset_sound h).timing, h.store⟩

/-- What holds of a state whatever its last outcome, and is kept by every orchestrator step, is kept by a frame. -/
theorem runSteps_keeps {P : State → Prop} (hout : ∀ s o, P s → P { s with outcome := o })
    (hstep : ∀ s t, P s → orchStep s = .next t → P t) (n : Nat) {s t : State} (hs : P s) (h : runSteps n s = .next t) :
    P t := by
  induction n generalizing s with
  | zero => cases h; exact hout _ _ hs
  | succ n ih =>
    obtain ⟨u, hu⟩ := orchStep_next s
    have hPu := hstep _ _ hs hu
    by_cases ho : u.outcome = .success
    · rw [runSteps_success hu ho] at h; exact ih hPu h
    · rw [runSteps_stop hu ho] at h; cases h; exact hPu

theorem runSteps_sound (n : Nat) {s t : State} (hs : s.Sound) (h : runSteps n s = .next t) : t.Sound :=
  runSteps_keeps (fun _ _ hs => hs.of_eq rfl rfl) (fun _ _ => orchStep_sound) n hs h

theorem runSteps_inv (n : Nat) {s t : State} (hs : s.Inv) (h : runSteps n s = .next t) : t.Inv :=
  runSteps_keeps (fun _ _ hs => ⟨hs.sound.of_eq rfl rfl, hs.counters⟩) (fun _ _ => orchStep_inv) n hs h

/-- Every command keeps soundness. -/
theorem runCommand_sound {c : Command} {s t : State} {r : Reply} (hs : s.Sound) (h : runCommand c s = .next (t, r)) :
    t.Sound := by
  by_cases hdebug : c = .stepInto ∨ c = .stepOver ∨ c = .stepOut
  · obtain ⟨f, he⟩ | ⟨-, he⟩ | ⟨hroom, a, he⟩ := debugCommand_cases s hdebug <;> cases he.symm.trans h
    · exact hs
    · exact hs.withBps (storeFits_append _ hs.store hroom)
  cases c with
  | stepInto | stepOver | stepOut => simp at hdebug
  | configureTiming ips fps =>
    obtain he | ⟨hi, hf, hle, he⟩ := configureTiming_cases ips fps s <;> cases he.symm.trans h
    · exact hs
    · exact ⟨hs.mem, retime_timing _ hi hf hle, hs.store⟩
  | reset => cases h; exact hostReset_sound hs
  | loadProgram bytes =>
    obtain he | ⟨hlen, he⟩ := loadProgram_cases bytes s <;> cases he.symm.trans h
    · exact hs
    · exact loaded_sound hs hlen
  | step => exact orchStep_sound (beginCommand_sound hs) (withOutcome_next h).1
  | runForOneFrame => exact runSteps_sound _ (beginCommand_sound hs) (withOutcome_next h).1
  | setKeyState k pressed =>
    obtain he | ⟨j, he⟩ := setKeyState_cases k pressed s <;> cases he.symm.trans h
    exact hs.of_eq (notifyKey_mem _ _ _) rfl
  | setPc v =>
    obtain he | he := setPc_cases v s <;> cases he.symm.trans h <;> exact hs.of_eq rfl rfl
  | setDelayTimer v => cases h; exact hs.of_eq rfl rfl
  | bpAdd a d =>
    obtain he | ⟨hroom, he⟩ := bpAdd_cases a d s <;> cases he.symm.trans h
    · exact hs
    · exact hs.withBps (storeFits_append _ hs.store hroom)
  | bpRemove a => cases h; exact hs.withBps (storeFits_of_length_le hs.store (List.length_filter_le _ _))
  | bpClear => cases h; exact hs.withBps (storeFits_of_length_le hs.store (Nat.zero_le _))

/-- Every command but `configure_timing` leaves both counters below their limits. -/
theorem runCommand_counters {c : Command} {s t : State} {r : Reply} (hs : s.Inv)
    (hc : ∀ ips fps, c ≠ .configureTiming ips fps) (h : runCommand c s = .next (t, r)) : t.orch.CountersOk := by
  obtain ⟨hsound, hcount⟩ := hs
  by_cases hdebug : c = .stepInto ∨ c = .stepOver ∨ c = .stepOut
  · obtain ⟨f, he⟩ | ⟨-, he⟩ | ⟨-, a, he⟩ := debugCommand_cases s hdebug <;> cases he.symm.trans h
    · exact hcount
    · exact ⟨hcount.frame, hcount.timer⟩
  cases c with
  | stepInto | stepOver | stepOut => simp at hdebug
  | configureTiming ips fps => exact absurd rfl (hc ips fps)
  | reset => cases h; exact hostReset_counters hsound
  | loadProgram bytes =>
    obtain he | ⟨-, he⟩ := loadProgram_cases bytes s <;> cases he.symm.trans h
    · exact hcount
    · exact hostReset_counters hsound
  | step => exact (orchStep_inv (beginCommand_inv ⟨hsound, hcount⟩) (withOutcome_next h).1).counters
  | runForOneFrame => exact (runSteps_inv _ (beginCommand_inv ⟨hsound, hcount⟩) (withOutcome_next h).1).counters
  | setKeyState k pressed =>
    obtain he | ⟨j, he⟩ := setKeyState_cases k pressed s <;> cases he.symm.trans h
    exact hcount
  | setPc v =>
    obtain he | he := setPc_cases v s <;> cases he.symm.trans h <;> exact hcount
  | bpAdd a d =>
    obtain he | ⟨-, he⟩ := bpAdd_cases a d s <;> cases he.symm.trans h
    · exact hcount
    · exact ⟨hcount.frame, hcount.timer⟩
  | setDelayTimer | bpRemove | bpClear => cases h; exact ⟨hcount.frame, hcount.timer⟩

/-- Settles O16: command by command. -/
theorem everyCommandKeepsTheInvariant : Obligations.EveryCommandKeepsTheInvariant :=
  ⟨fun _ _ _ _ => runCommand_sound,
    fun _ _ _ _ hs hc h => ⟨runCommand_sound hs.sound h, runCommand_counters hs hc h⟩⟩

end Sys2Proof.Machine
end

section
/-! Calls, register arithmetic and the oracle (41_control_transfer.md; 42_load_alu.md). -/

namespace Sys2Proof.Machine

/-! ### Control transfer (R60, R62, R67) -/

theorem toInt_injective {p q : StackPtr} (h : p.toInt = q.toInt) : p = q := by
  cases p <;> cases q <;> simp only [StackPtr.toInt] at h
  · rfl
  · omega
  · omega
  · rw [Fin.ext (Int.ofNat.inj h)]

theorem slot_of_stack {g g' : Guest} (h : g.stack = g'.stack) (k : Nat) : g.slot k = g'.slot k := by
  simp only [Guest.slot, h]

/-- Settles O23: the `RET` pops the slot the `CALL` pushed onto. -/
theorem aReturnComesBackBehindItsCall : Obligations.AReturnComesBackBehindItsCall := by
  intro a s t u hcall hok hsp hstack
  obtain rfl | ⟨j, hj, rfl⟩ := exec_call_cases hcall
  · cases hok
  · obtain ⟨sp, hint, hret⟩ := exec_ret_top (s := u) (k := j) hsp
    refine ⟨_, hret, rfl, ?_, toInt_injective (by omega : sp.toInt = s.guest.sp.toInt)⟩
    exact (slot_of_stack hstack j.val).trans (slot_push_same s.guest j _)

theorem zext16_toNat (v : Byte) : (zext16 v).toNat = v.toNat := by
  have := v.isLt
  simp only [zext16, BitVec.toNat_setWidth]
  omega

/-- Settles O25: the sum of a 12-bit address and a byte stays below 65536. -/
theorem jumpWithOffsetAddsRegisterZero : Obligations.JumpWithOffsetAddsRegisterZero := by
  refine fun a s ha => ⟨_, succeedAt_eq s s.guest _, rfl, ?_⟩
  have := (s.guest.getV 0).isLt
  simp only [BitVec.toNat_add, zext16_toNat]
  omega

/-! ### Results without a flag (R70, R72 to R74) -/

/-- Settles O29: each form is one register write, of a sum or of a bitwise operation. -/
theorem addImmediateAndLogicWriteNoFlag : Obligations.AddImmediateAndLogicWriteNoFlag := by
  refine fun x y k s => ⟨?_, ?_, ?_, ?_⟩
  · obtain ⟨t, he, hframe, hv⟩ := succeed_setV s x (s.guest.getV x + k)
    exact ⟨t, he, hframe, by rw [hv, BitVec.toNat_add]⟩
  · obtain ⟨t, he, hframe, hv⟩ := succeed_setV s x (s.guest.getV x ||| s.guest.getV y)
    exact ⟨t, he, hframe, fun j => by rw [hv, BitVec.getLsbD_or]⟩
  · obtain ⟨t, he, hframe, hv⟩ := succeed_setV s x (s.guest.getV x &&& s.guest.getV y)
    exact ⟨t, he, hframe, fun j => by rw [hv, BitVec.getLsbD_and]⟩
  · obtain ⟨t, he, hframe, hv⟩ := succeed_setV s x (s.guest.getV x ^^^ s.guest.getV y)
    exact ⟨t, he, hframe, fun j => by rw [hv, BitVec.getLsbD_xor]⟩

/-! ### Results with a flag (R75 to R79) -/

/-- An instruction that succeeds with a flag and then a result written: `V[x]` holds the result, `VF` the flag unless
it is `V[x]`, and nothing else changed. -/
theorem succeed_setFlagThen (s : State) (b : Bool) (x : Reg) (v : Byte) :
    ∃ t, succeed s (s.guest.setFlagThen b x v) = .next t ∧
      ChangesOnlyV s t (s.guest.pc + 2) (fun r => r = x ∨ r = 15) ∧
      t.guest.getV x = v ∧ (x ≠ 15 → t.guest.getV 15 = flagByte b) :=
  ⟨_, succeed_eq s _,
    ⟨rfl, fun _ hr => getV_setFlagThen_other s.guest b v (fun e => hr (.inl e)) (fun e => hr (.inr e))⟩,
    getV_setFlagThen_dest s.guest b x v, fun hx => getV_setFlagThen_flag s.guest b v hx⟩

theorem flagByte_decide (p : Prop) [Decidable p] : flagByte (decide p) = if p then 1 else 0 := by
  by_cases h : p <;> simp [flagByte, h]

/-- Settles O30: the flag is the carry of the two values before the instruction. -/
theorem addSetsTheCarryAndStoresTheSum : Obligations.AddSetsTheCarryAndStoresTheSum := by
  intro x y s
  obtain ⟨t, he, hframe, hv, hf⟩ := succeed_setFlagThen s (carryOut (s.guest.getV x) (s.guest.getV y)) x
    (s.guest.getV x + s.guest.getV y)
  exact ⟨t, he, hframe, by rw [hv, BitVec.toNat_add], fun hx => (hf hx).trans (flagByte_decide _)⟩

theorem toNat_sub_emod (a b : Byte) : ((a - b).toNat : Int) = ((a.toNat : Int) - b.toNat) % 256 := by
  have := a.isLt
  have := b.isLt
  rw [BitVec.toNat_sub]
  omega

/-- Settles O31: both forms write the difference of minuend and subtrahend, in their own order. -/
theorem subtractionsSetTheFlagWhenTheMinuendIsGreater : Obligations.SubtractionsSetTheFlagWhenTheMinuendIsGreater := by
  refine fun x y s => ⟨?_, ?_⟩
  · obtain ⟨t, he, hframe, hv, hf⟩ := succeed_setFlagThen s (minuendGreater (s.guest.getV x) (s.guest.getV y)) x
      (s.guest.getV x - s.guest.getV y)
    exact ⟨t, he, hframe, by rw [hv, toNat_sub_emod], fun hx => (hf hx).trans (flagByte_decide _)⟩
  · obtain ⟨t, he, hframe, hv, hf⟩ := succeed_setFlagThen s (minuendGreater (s.guest.getV y) (s.guest.getV x)) x
      (s.guest.getV y - s.guest.getV x)
    exact ⟨t, he, hframe, by rw [hv, toNat_sub_emod], fun hx => (hf hx).trans (flagByte_decide _)⟩

theorem flagByte_getLsbD_toNat (v : Byte) (j : Nat) : (flagByte (v.getLsbD j)).toNat = v.toNat / 2 ^ j % 2 := by
  rw [BitVec.getLsbD, Nat.testBit_eq_decide_div_mod_eq, flagByte_decide]
  split
  · rename_i h; rw [h]; rfl
  · rename_i h; rw [(Nat.mod_two_eq_zero_or_one _).resolve_right h]; rfl

theorem flagByte_bit0_toNat (v : Byte) : (flagByte (bit0 v)).toNat = v.toNat % 2 := by
  rw [bit0, flagByte_getLsbD_toNat, Nat.pow_zero, Nat.div_one]

theorem flagByte_bit7_toNat (v : Byte) : (flagByte (bit7 v)).toNat = v.toNat / 128 := by
  have := v.isLt
  rw [bit7, flagByte_getLsbD_toNat]
  omega

/-- Settles O32: the flag is the bit at the end the shift moves towards. -/
theorem shiftsMoveOneBitIntoTheFlag : Obligations.ShiftsMoveOneBitIntoTheFlag := by
  refine fun x s => ⟨?_, ?_⟩
  · obtain ⟨t, he, hframe, hv, hf⟩ := succeed_setFlagThen s (bit0 (s.guest.getV x)) x (s.guest.getV x >>> 1)
    refine ⟨t, he, hframe, ?_, fun hx => by rw [hf hx, flagByte_bit0_toNat]⟩
    rw [hv, BitVec.toNat_ushiftRight, Nat.shiftRight_eq_div_pow]
  · obtain ⟨t, he, hframe, hv, hf⟩ := succeed_setFlagThen s (bit7 (s.guest.getV x)) x (s.guest.getV x <<< 1)
    refine ⟨t, he, hframe, ?_, fun hx => by rw [hf hx, flagByte_bit7_toNat]⟩
    rw [hv, BitVec.toNat_shiftLeft, Nat.shiftLeft_eq]

/-! ### The oracle (R80) -/

theorem exec_rnd (x : Reg) (k : Byte) (s : State) : exec (.rnd x k) s =
    .next { s with
      guest    := { s.guest.setV x (Config.randByte s.randUsed &&& k) with pc := s.guest.pc + 2 }
      outcome  := .success
      randUsed := s.randUsed + 1 } := rfl

/-- Settles O33: whatever the oracle's byte is, the mask clears it where it is 0. -/
theorem randomStaysUnderItsMask : Obligations.RandomStaysUnderItsMask := by
  intro x k s
  have hv := getV_setV_same s.guest x (Config.randByte s.randUsed &&& k)
  refine ⟨_, exec_rnd x k s, rfl, fun r hr => getV_setV_other s.guest _ hr, hv, fun j hj => ?_, fun hk => ?_⟩
  · exact (congrArg (BitVec.getLsbD · j) hv).trans (by simp [hj])
  · exact hv.trans (by simp [hk])

end Sys2Proof.Machine
end

section
/-! The index register and memory (43_index_memory.md R83 to R87; 20_memory.md section 4). -/

namespace Sys2Proof.Machine

/-! ### The index register (R83, R84) -/

theorem glyphAddress_toNat (v : Byte) : (glyphAddress v).toNat = v.toNat * 5 := by
  have := v.isLt
  simp only [glyphAddress, Config.fontBase, Config.glyphBytes, BitVec.toNat_ofNat]
  omega

/-- Settles O35: `I` is the one guest write of both forms. -/
theorem indexArithmeticWritesOnlyTheIndex : Obligations.IndexArithmeticWritesOnlyTheIndex := by
  refine fun x s => ⟨⟨_, succeed_eq s _, rfl, ?_⟩, _, succeed_eq s _, rfl, glyphAddress_toNat _⟩
  simp only [BitVec.toNat_add, zext16_toNat]

/-! ### Stores (R85, R86) -/

/-- A store that fits puts each byte at its offset and changes no other byte. -/
theorem storeAtI_stores {s : State} {bs : List Byte} {n : Nat} (h : s.guest.effectiveAddress n ≤ 4095) :
    ∃ t, storeAtI s bs n = .next t ∧ ChangesOnlyBytes s t (s.guest.effectiveAddress 0) bs.length ∧
      ∀ j (hj : j < bs.length), readByte t.guest.mem (s.guest.effectiveAddress j) = bs[j] :=
  ⟨_, storeAtI_ok h, ⟨rfl, fun b hb => readByte_writeBytes_outside bs _ _ b hb⟩,
    fun j hj => readByte_writeBytes_inside bs _ _ j hj⟩

/-- Settles O36: the three digits are the quotients and remainders by ten. -/
theorem bcdStoresTheThreeDecimalDigits : Obligations.BcdStoresTheThreeDecimalDigits := by
  refine fun x s => ⟨fun h => storeAtI_fault h, fun h => ?_⟩
  obtain ⟨t, he, hframe, hread⟩ := storeAtI_stores (bs := bcdDigits (s.guest.getV x)) h
  have hlt := (s.guest.getV x).isLt
  refine ⟨t, he, hframe, ?_⟩
  have hlen := bcdDigits_length (s.guest.getV x)
  rw [hread 0 (by omega), hread 1 (by omega), hread 2 (by omega)]
  simp only [bcdDigits, List.getElem_cons_zero, List.getElem_cons_succ, BitVec.toNat_ofNat]
  omega

theorem storeRegs_stores {x : Reg} {s : State} (h : s.guest.effectiveAddress x.val ≤ 4095) :
    ∃ t, exec (.storeRegs x) s = .next t ∧ ChangesOnlyBytes s t (s.guest.effectiveAddress 0) (x.val + 1) ∧
      ∀ r : Reg, r ≤ x → readByte t.guest.mem (s.guest.effectiveAddress r.val) = s.guest.getV r := by
  obtain ⟨t, he, hframe, hread⟩ := storeAtI_stores (bs := s.guest.regsUpTo x) h
  have hlen := regsUpTo_length s.guest x
  refine ⟨t, he, hlen ▸ hframe, fun r hr => ?_⟩
  have hlt : r.val < (s.guest.regsUpTo x).length := by rw [hlen]; exact Nat.lt_succ_of_le hr
  rw [hread r.val hlt, regsUpTo_getElem]

/-- Settles O37: the bytes of a bulk store are the registers in order. -/
theorem bulkStoreWritesRegistersZeroToX : Obligations.BulkStoreWritesRegistersZeroToX :=
  fun _ _ => ⟨fun h => storeAtI_fault h, storeRegs_stores⟩

/-! ### Loads (R87) -/

theorem loadRegs_loads {x : Reg} {s : State} (h : s.guest.effectiveAddress x.val ≤ 4095) :
    ∃ t, exec (.loadRegs x) s = .next t ∧ ChangesOnlyV s t (s.guest.pc + 2) (· ≤ x) ∧
      ∀ r : Reg, r ≤ x → t.guest.getV r = readByte s.guest.mem (s.guest.effectiveAddress r.val) := by
  refine ⟨_, exec_loadRegs_ok h, ⟨rfl, fun r hr => ?_⟩, fun r hr => ?_⟩
  · rw [getV_loadFrom rfl, if_neg fun hlt => hr (Nat.le_of_lt_succ hlt)]
    rfl
  · rw [getV_loadFrom rfl, if_pos (Nat.lt_succ_of_le hr)]
    rfl

/-- Settles O38: a bulk load fills the registers in order from the bytes at `I`. -/
theorem bulkLoadReadsRegistersZeroToX : Obligations.BulkLoadReadsRegistersZeroToX :=
  fun _ _ => ⟨exec_loadRegs_fault, loadRegs_loads⟩

/-! ### A store is seen by what reads it (20_memory.md section 4) -/

/-- A bulk store that succeeded had its last address in memory, and its bytes stand at `I`. -/
theorem storeRegs_success {x : Reg} {s t : State} (h : exec (.storeRegs x) s = .next t) (ht : t.outcome = .success) :
    s.guest.effectiveAddress x.val ≤ 4095 ∧
      ∀ r : Reg, r ≤ x → readByte t.guest.mem (s.guest.effectiveAddress r.val) = s.guest.getV r := by
  have hle : s.guest.effectiveAddress x.val ≤ 4095 := by
    by_contra hgt
    cases (storeAtI_fault (Nat.not_le.mp hgt)).symm.trans h
    cases ht
  obtain ⟨u, he, -, hread⟩ := storeRegs_stores hle
  cases he.symm.trans h
  exact ⟨hle, hread⟩

/-- Settles O39: the load reads each register from the byte that the store put it into. -/
theorem aBulkLoadRestoresWhatABulkStoreStored : Obligations.ABulkLoadRestoresWhatABulkStoreStored := by
  intro x s t u h ht hmem hI
  obtain ⟨hle, hread⟩ := storeRegs_success h ht
  have hea : ∀ j, u.guest.effectiveAddress j = s.guest.effectiveAddress j := fun j => by
    rw [Guest.effectiveAddress, hI]; rfl
  obtain ⟨v, he, hframe, hload⟩ := loadRegs_loads (s := u) (x := x) (by rw [hea]; exact hle)
  refine ⟨v, he, by rw [hframe.1], fun r hr => ?_⟩
  rw [hload r hr, hea, hmem, hread r hr]

/-- Settles O40: the word at `I` is made of the first two bytes stored, and `I` lies below the last word. -/
theorem aStoreIsSeenByTheNextFetch : Obligations.AStoreIsSeenByTheNextFetch := by
  intro x s t hx h ht hpc hh
  obtain ⟨hle, hread⟩ := storeRegs_success h ht
  have hfetch : t.guest.fetch = wordOfBytes (s.guest.getV 0) (s.guest.getV 1) := by
    rw [← hread 0 (Fin.zero_le x), ← hread 1 hx, Guest.fetch, hpc]
    rfl
  have hp : t.guest.pc.toNat ≤ 4094 := by
    rw [hpc]; simp only [Guest.effectiveAddress] at hle; omega
  refine ⟨hfetch, fun i hi => ?_⟩
  rw [engineStep_execute hh hp, hfetch]
  exact executeWord_ok hi t

end Sys2Proof.Machine
end

section
/-! The sprite draw (44_display.md R90). -/

namespace Sys2Proof.Machine

theorem covers_bounds {m : Memory} {i : Nat} {vx vy : Byte} {n px py : Nat} (h : Covers m i vx vy n px py) :
    px < 64 ∧ py < 32 := by
  obtain ⟨row, col, -, -, hx, hy, -⟩ := h
  omega

/-- Rows that all lie in memory, drawn from a drawing without a collision: what `Drawn` asks of the state they leave. -/
theorem drawn_of_drawRows {s t : State} {vx vy : Byte} {n : Nat} (hn : n ≤ 32)
    (hfit : n = 0 ∨ s.guest.I.toNat + n ≤ 4096)
    (hfb : t.guest.fb = (drawRows s.guest.mem s.guest.I.toNat vx vy n 0 ⟨s.guest.fb, false⟩).1.fb)
    (hvf : t.guest.getV 15 =
      flagByte (drawRows s.guest.mem s.guest.I.toNat vx vy n 0 ⟨s.guest.fb, false⟩).1.collided) :
    Drawn s t vx vy n := by
  have hcoll := drawRows_collided (m := s.guest.mem) (i := s.guest.I.toNat) (vx := vx) (vy := vy) n 0
    ⟨s.guest.fb, false⟩ hn hfit
  simp only [Bool.false_eq_true, false_or, ← covers_iff_rowsCover] at hcoll
  refine ⟨fun px py hx hy => ?_, fun h => ?_, fun h => ?_⟩
  · rw [hfb, drawRows_pixel (i := s.guest.I.toNat) n 0 _ hn hfit px py hx hy, covers_iff_rowsCover]
  · rw [hvf, flagByte_eq_one_iff, hcoll]
    exact h
  · rw [hvf, Bool.eq_false_iff.mpr (mt hcoll.mp h)]
    rfl

/-- A draw whose rows all lie in memory completes. -/
theorem exec_drw_completes (x y : Reg) {n : Nat} {s : State} (hn : n ≤ 32) (hfit : n = 0 ∨ s.guest.I.toNat + n ≤ 4096) :
    ∃ t, exec (.drw x y n) s = .next t ∧
      t = { s with
        guest   := { s.guest with V := t.guest.V, fb := t.guest.fb, pc := s.guest.pc + 2 }
        outcome := .success } ∧
      (∀ r, r ≠ 15 → t.guest.getV r = s.guest.getV r) ∧
      Drawn s t (s.guest.getV x) (s.guest.getV y) n := by
  obtain ⟨t, ht⟩ := exec_next (.drw x y n) s
  have hall := drawRows_all (m := s.guest.mem) (i := s.guest.I.toNat) (vx := s.guest.getV x) (vy := s.guest.getV y) n 0
    ⟨s.guest.fb, false⟩ hfit
  obtain ⟨-, rfl⟩ | ⟨hf, -⟩ := execDrw_cases ht
  · exact ⟨_, ht, rfl, fun r hr => getV_setV_other s.guest _ hr,
      drawn_of_drawRows hn hfit rfl (getV_setV_same s.guest 15 _)⟩
  · rw [hall] at hf; cases hf

/-- Settles O42: the draw whose rows all lie in memory. -/
theorem drawExclusiveOrsTheSpriteAndReportsCollisions : Obligations.DrawExclusiveOrsTheSpriteAndReportsCollisions :=
  fun x y _ _ hn hfit => exec_drw_completes x y (by omega) hfit

/-- A draw with a row above address 4095 draws the rows below it and faults. -/
theorem exec_drw_faults (x y : Reg) {n : Nat} {s : State} (hn : n ≤ 32) (h0 : n ≠ 0)
    (hout : s.guest.I.toNat + n > 4096) :
    ∃ t, exec (.drw x y n) s = .next t ∧
      t = { s with
        guest   := { s.guest with V := t.guest.V, fb := t.guest.fb }
        outcome := .fault .invalidSpriteLocation } ∧
      (∀ r, r ≠ 15 → t.guest.getV r = s.guest.getV r) ∧
      Drawn s t (s.guest.getV x) (s.guest.getV y) (4096 - s.guest.I.toNat) := by
  obtain ⟨t, ht⟩ := exec_next (.drw x y n) s
  have hfault := drawRows_fault (m := s.guest.mem) (i := s.guest.I.toNat) (vx := s.guest.getV x) (vy := s.guest.getV y)
    n 0 ⟨s.guest.fb, false⟩ h0 hout
  obtain ⟨ha, -⟩ | ⟨-, rfl⟩ := execDrw_cases ht
  · rw [hfault] at ha; cases ha
  · refine ⟨_, ht, rfl, fun r hr => getV_setV_other s.guest _ hr, drawn_of_drawRows (by omega) (by omega) ?_ ?_⟩
    · simp only [hfault, Nat.add_zero]
    · exact (getV_setV_same s.guest 15 _).trans (by simp only [hfault, Nat.add_zero])

/-- Settles O43: the draw with a row above address 4095. -/
theorem aFaultingDrawKeepsTheRowsItDrew : Obligations.AFaultingDrawKeepsTheRowsItDrew :=
  fun x y _ _ hn h0 hout => exec_drw_faults x y (by omega) h0 hout

/-- A draw that succeeded had all its rows in memory. -/
theorem exec_drw_success {x y : Reg} {n : Nat} {s t : State} (hn : n ≤ 32) (h : exec (.drw x y n) s = .next t)
    (ht : t.outcome = .success) : n = 0 ∨ s.guest.I.toNat + n ≤ 4096 := by
  by_contra hout
  obtain ⟨u, hu, hframe, -⟩ := exec_drw_faults x y (s := s) hn (by omega) (by omega)
  cases hu.symm.trans h
  rw [hframe] at ht
  cases ht

/-- Two drawings of the same sprite on top of each other leave every cell as it was. -/
theorem fb_eq_of_drawn_twice {s t u : State} {vx vy : Byte} {n : Nat} (hmem : t.guest.mem = s.guest.mem)
    (hI : t.guest.I = s.guest.I) (hst : Drawn s t vx vy n) (htu : Drawn t u vx vy n) : u.guest.fb = s.guest.fb := by
  refine Framebuffer.ext_pixel fun px py hx hy => Bool.eq_iff_iff.mpr ?_
  have h1 := hst.1 px py hx hy
  have h2 := htu.1 px py hx hy
  rw [hmem, hI] at h2
  tauto

/-- The second drawing reports a collision exactly when the first turned a pixel on. -/
theorem flag_of_drawn_twice {s t u : State} {vx vy : Byte} {n : Nat} (hmem : t.guest.mem = s.guest.mem)
    (hI : t.guest.I = s.guest.I) (hst : Drawn s t vx vy n) (htu : Drawn t u vx vy n) :
    u.guest.getV 15 = 1 ↔
      ∃ px py, px < 64 ∧ py < 32 ∧ s.guest.fb.pixel px py = false ∧ t.guest.fb.pixel px py = true := by
  obtain ⟨-, hone, hzero⟩ := htu
  rw [hmem, hI] at hone hzero
  have hcell : ∀ px py, px < 64 → py < 32 → t.guest.fb.pixel px py = true →
      (s.guest.fb.pixel px py = false ↔ Covers s.guest.mem s.guest.I.toNat vx vy n px py) := by
    intro px py hx hy ht
    rw [← Bool.not_eq_true]
    have := (hst.1 px py hx hy).mp ht
    tauto
  constructor
  · intro h
    by_contra hno
    have hnone : ¬ ∃ px py, t.guest.fb.pixel px py = true ∧ Covers s.guest.mem s.guest.I.toNat vx vy n px py := by
      rintro ⟨px, py, ht, hc⟩
      obtain ⟨hx, hy⟩ := covers_bounds hc
      exact hno ⟨px, py, hx, hy, (hcell px py hx hy ht).mpr hc, ht⟩
    rw [hzero hnone] at h
    exact absurd h (by decide)
  · rintro ⟨px, py, hx, hy, hs, ht⟩
    exact hone ⟨px, py, ht, (hcell px py hx hy ht).mp hs⟩

/-- Settles O44: the second draw reads the same sprite at the same place, since a draw writes neither memory, `I` nor a
register but `VF`. -/
theorem drawingTwiceRestoresTheFramebuffer : Obligations.DrawingTwiceRestoresTheFramebuffer := by
  intro x y n s t hn hx hy h ht
  have hn32 : n ≤ 32 := by omega
  have hfit := exec_drw_success hn32 h ht
  obtain ⟨t', ht', hframe, hV, hst⟩ := exec_drw_completes x y hn32 hfit
  cases ht'.symm.trans h
  have hmem : t.guest.mem = s.guest.mem := by rw [hframe]
  have hI : t.guest.I = s.guest.I := by rw [hframe]
  obtain ⟨u, hu, huframe, -, htu⟩ := exec_drw_completes x y (s := t) hn32 (by rw [hI]; exact hfit)
  rw [hV x hx, hV y hy] at htu
  exact ⟨u, hu, by rw [huframe], fb_eq_of_drawn_twice hmem hI hst htu, flag_of_drawn_twice hmem hI hst htu⟩

end Sys2Proof.Machine
end
